-- ==== Sys2Proof/Word.lean ====
section
/-!
DEFINITION. The words of the block: request words, micro-op words, bytes, nibbles, the micro-program counter.
All values are unsigned (R12); durations are natural numbers of nanoseconds (R15, R23).
-/

namespace Sys2Proof

/-- A byte of a CMD or DATA request (R19, R70). -/
abbrev Byte := BitVec 8

/-- The four bits one bus cycle presents (R39, R97). -/
abbrev Nibble := BitVec 4

/-- A request word, format REQ (R66). -/
abbrev ReqWord := BitVec 12

/-- A micro-op word, format UOP (R69). -/
abbrev UopWord := BitVec 8

/-- The micro-program counter `UPC`, 7 bits (R26). -/
abbrev Upc := BitVec 7

/-- A word of one of the block's two formats (30_encoding.md section 1). -/
inductive CodeWord where
  | req (w : ReqWord)
  | uop (u : UopWord)
  deriving DecidableEq, Repr

end Sys2Proof
end

