-- ==== Sys2Proof/Config.lean ====
section
/-!
DEFINITION. What one block is constructed with (R8, R20, R23, R139) and the free values of the model.
`CFG`, `TIMING` and the pin handles are construction arguments, so State holds them; this file gives their types,
the spec's default `TIMING`, and the one free value, the time that passes between two steps.
-/

namespace Sys2Proof

/-- `CFG`, the 3-bit configuration register (R20). -/
structure Cfg where
  /-- bit 0: two display lines -/
  n : Bool
  /-- bit 1: 5×10 font -/
  f : Bool
  /-- bit 2: a read/write pin handle is supplied -/
  rwp : Bool
  deriving DecidableEq, Repr

/-- `TIMING`, eight named durations in nanoseconds (R9, R23). -/
structure Timing where
  tSetup   : Nat
  tPw      : Nat
  tHold    : Nat
  tShort   : Nat
  tLong    : Nat
  tPowerOn : Nat
  tInit1   : Nat
  tInit2   : Nat
  deriving DecidableEq, Repr

/-- The pin handles a block is constructed with, each the number of a microcontroller pin: six, and `RW` as an optional
seventh (R131, R139, C1). Their values are the open parameter `PIN_MAP` (R10). -/
structure Handles where
  d4 : Nat
  d5 : Nat
  d6 : Nat
  d7 : Nat
  rs : Nat
  e  : Nat
  rw : Option Nat
  deriving DecidableEq, Repr

/-- The arguments of a construction, the block's only reset (R139). -/
structure ConstructArgs where
  cfg     : Cfg
  timing  : Timing
  handles : Handles
  deriving DecidableEq, Repr

namespace Config

/-- The data-bus width, fixed (R7). -/
def busWidth : Nat := 4

/-- The length of the longest micro-program (R11, R27). -/
def maxMicroOps : Nat := 127

/-- The default `TIMING` (R23; the values are the spec's own choice, D9). -/
def defaultTiming : Timing :=
  { tSetup := 1000, tPw := 1000, tHold := 1000, tShort := 50000, tLong := 2000000,
    tPowerOn := 50000000, tInit1 := 4500000, tInit2 := 150000 }

/-- FREE VALUE (assumption 4): the nanoseconds that pass before step number `tick` takes effect. Nothing constrains it
but that it is a natural number: R55(a), U5 and U6 give any amount, without upper bound. -/
opaque gap : Nat → Nat

end Config

end Sys2Proof
end

