-- ==== Sys2Proof/Syntax.lean ====
section
/-!
DEFINITION. The instructions of the block, one constructor per row of spec/opcode_table.json: the three requests and
the eleven micro-op rows (R67, R69). Register numbers and codes are constructors here; their bits are in Decode.lean.
The informative pseudo-instructions (R78 to R89) have their own type.
-/

namespace Sys2Proof

/-- A logical pin of the bus (R33). -/
inductive Pin where
  | d4 | d5 | d6 | d7 | rs | e | rw
  deriving DecidableEq, Repr

/-- The delay class of a CMD (R18, R67). -/
inductive DelayClass where
  | short | long
  deriving DecidableEq, Repr

/-- The name of an entry of `TIMING` (R23). -/
inductive TimeName where
  | setup | pw | hold | short | long | powerOn | init1 | init2
  deriving DecidableEq, Repr

/-- The instructions: requests (format REQ) and micro-ops (format UOP). -/
inductive Instr where
  /-- CMD: send one controller-instruction byte (R103). -/
  | cmd (cls : DelayClass) (byte : Byte)
  /-- DATA: send one display-data byte (R104). -/
  | data (byte : Byte)
  /-- INIT: run the power-on sequence and enter Ready (R109). -/
  | init
  /-- SETPIN D4 (R92). -/
  | setpinD4 (lvl : Bool)
  /-- SETPIN D5 (R92). -/
  | setpinD5 (lvl : Bool)
  /-- SETPIN D6 (R92). -/
  | setpinD6 (lvl : Bool)
  /-- SETPIN D7 (R92). -/
  | setpinD7 (lvl : Bool)
  /-- SETPIN RS (R92). -/
  | setpinRS (lvl : Bool)
  /-- SETPIN E (R92). -/
  | setpinE (lvl : Bool)
  /-- SETPIN RW (R92); only with a read/write handle (R72). -/
  | setpinRW (lvl : Bool)
  /-- WAIT: wait at least a named duration (R93). -/
  | wait (name : TimeName)
  /-- END: finish the request (R94). -/
  | endOp
  /-- SETRDY: enter Ready (R95). -/
  | setrdy
  /-- CLRRDY: leave Ready (R96). -/
  | clrrdy
  deriving DecidableEq, Repr

/-- Is it a request, which a client submits, rather than a micro-op? (30_encoding.md section 1) -/
def Instr.isRequest : Instr → Bool
  | .cmd _ _ | .data _ | .init => true
  | .setpinD4 _ | .setpinD5 _ | .setpinD6 _ | .setpinD7 _ | .setpinRS _ | .setpinE _ | .setpinRW _
  | .wait _ | .endOp | .setrdy | .clrrdy => false

/-- Why a word is no instruction: the reserved and illegal encodings by name (R72, R74). -/
inductive DecodeError where
  /-- `OP = 3` (R74) -/
  | reservedOp
  /-- `RSV = 1` in a request word (R74) -/
  | reservedReqBit
  /-- DATA with `CLS = 1` (R74) -/
  | classOnData
  /-- INIT with `CLS = 1` (R74) -/
  | classOnInit
  /-- INIT with `BYTE ≠ 0` (R74) -/
  | byteOnInit
  /-- SETPIN of pin 7 (R33, R72) -/
  | reservedPin
  /-- SETPIN with `RSV ≠ 0` (R72) -/
  | reservedSetpinBits
  /-- WAIT with `RSV ≠ 0` (R72) -/
  | reservedWaitBits
  /-- CTRL with `FN` 3 to 63 (R69, R72) -/
  | reservedFn
  /-- `K = 3` (R69, R72) -/
  | reservedKind
  deriving DecidableEq, Repr

/-- What a word decodes to: an instruction, or a refusal by name (`Illegal` of R71, `BadUop` of R72). -/
inductive Decoded where
  | instr (i : Instr)
  | bad (why : DecodeError)
  deriving DecidableEq, Repr

/-- The row and column of `cursor` (R88): every column whose address `base(row) + column` is an operand of `set_ddram`, 0 to
127 (R85), so columns 0 to 127 of row 0, whose base is 0, and 0 to 63 of row 1, whose base is 64 (assumption 21). -/
inductive CursorPos where
  | row0 (col : BitVec 7)
  | row1 (col : BitVec 6)
  deriving DecidableEq, Repr

/-- The pseudo-instructions of 30_encoding.md section 7 (informative, R78 to R89). -/
inductive Pseudo where
  | clear
  | home
  | entryMode (increment shiftOnWrite : Bool)
  | displayCtl (on cursor blink : Bool)
  | shift (display right : Bool)
  | functionSet (n f : Bool)
  | setCgram (a : BitVec 6)
  | setDdram (a : BitVec 7)
  | putc (c : Byte)
  | puts (s : List Byte)
  | cursor (pos : CursorPos)
  | glyph (i : BitVec 3) (rows : Vector Byte 8) (back : BitVec 7)
  deriving DecidableEq, Repr

end Sys2Proof
end

