-- ==== Sys2Proof/Decode.lean ====
section
/-!
DEFINITION. Decoding of request words and micro-op words, total and rejecting by name (R71, R72), and the encoder
written from the same tables (R67, R69). No word has a byte order: each format is one whole word (R46, R66, R76).
-/

namespace Sys2Proof

/-! ## Codes of the fields -/

/-- Pin identifiers (R33). -/
def Pin.code : Pin → BitVec 3
  | .d4 => 0 | .d5 => 1 | .d6 => 2 | .d7 => 3 | .rs => 4 | .e => 5 | .rw => 6

/-- The pin of an identifier; 7 is reserved (R33). -/
def pinOfCode (c : BitVec 3) : Option Pin :=
  if c = 0 then some .d4 else if c = 1 then some .d5 else if c = 2 then some .d6 else if c = 3 then some .d7
  else if c = 4 then some .rs else if c = 5 then some .e else if c = 6 then some .rw else none

/-- `TIMING` indices (R23). -/
def TimeName.code : TimeName → BitVec 3
  | .setup => 0 | .pw => 1 | .hold => 2 | .short => 3 | .long => 4 | .powerOn => 5 | .init1 => 6 | .init2 => 7

/-- The `TIMING` entry of an index; all eight are used (R23). -/
def timeOfCode (c : BitVec 3) : TimeName :=
  if c = 0 then .setup else if c = 1 then .pw else if c = 2 then .hold else if c = 3 then .short
  else if c = 4 then .long else if c = 5 then .powerOn else if c = 6 then .init1 else .init2

/-- The class bit of a CMD (R67). -/
def DelayClass.bit : DelayClass → Bool
  | .short => false
  | .long => true

/-- The class of a class bit (R67). -/
def classOfBit (c : Bool) : DelayClass := if c then .long else .short

/-- SETPIN of any pin, as the instruction of its opcode-table row. -/
def setpin (p : Pin) (lvl : Bool) : Instr :=
  match p with
  | .d4 => .setpinD4 lvl | .d5 => .setpinD5 lvl | .d6 => .setpinD6 lvl | .d7 => .setpinD7 lvl
  | .rs => .setpinRS lvl | .e => .setpinE lvl | .rw => .setpinRW lvl

/-! ## Decoding -/

/-- `DecodeReq` (R71). -/
def decodeReq (w : ReqWord) : Decoded :=
  let op := w.extractLsb' 10 2
  let cls := w.getLsbD 8
  let b : Byte := w.extractLsb' 0 8
  if w.getLsbD 9 then .bad .reservedReqBit
  else if op = 0 then .instr (.cmd (classOfBit cls) b)
  else if op = 1 then (if cls then .bad .classOnData else .instr (.data b))
  else if op = 2 then
    (if cls then .bad .classOnInit else if b = 0 then .instr .init else .bad .byteOnInit)
  else .bad .reservedOp

/-- `DecodeUop` (R72); `bad` is `BadUop`. -/
def decodeUop (u : UopWord) : Decoded :=
  let k := u.extractLsb' 6 2
  if k = 0 then
    match pinOfCode (u.extractLsb' 3 3) with
    | none => .bad .reservedPin
    | some p => if u.extractLsb' 1 2 = 0 then .instr (setpin p (u.getLsbD 0)) else .bad .reservedSetpinBits
  else if k = 1 then
    (if u.extractLsb' 3 3 = 0 then .instr (.wait (timeOfCode (u.extractLsb' 0 3))) else .bad .reservedWaitBits)
  else if k = 2 then
    let fn := u.extractLsb' 0 6
    (if fn = 0 then .instr .endOp else if fn = 1 then .instr .setrdy else if fn = 2 then .instr .clrrdy
     else .bad .reservedFn)
  else .bad .reservedKind

/-- Decoding of a word of either format. -/
def decode : CodeWord → Decoded
  | .req w => decodeReq w
  | .uop u => decodeUop u

/-! ## Encoding -/

/-- The word of a request from its fields `OP`, `CLS`, `BYTE`, with `RSV = 0` (R67). -/
def reqWord (op : BitVec 2) (cls : Bool) (b : Byte) : ReqWord :=
  op.setWidth 12 <<< 10 ||| (BitVec.ofBool cls).setWidth 12 <<< 8 ||| b.setWidth 12

/-- CMD `00 0 c bbbbbbbb` (R67, R103). -/
def cmdWord (cls : DelayClass) (b : Byte) : ReqWord := reqWord 0 cls.bit b

/-- DATA `01 0 0 bbbbbbbb` (R67, R104). -/
def dataWord (b : Byte) : ReqWord := reqWord 1 false b

/-- INIT `10 0 0 00000000` (R67, R109). -/
def initWord : ReqWord := reqWord 2 false 0

/-- SETPIN `00 ppp 00 l` (R69). -/
def setpinWord (p : Pin) (lvl : Bool) : UopWord :=
  p.code.setWidth 8 <<< 3 ||| (BitVec.ofBool lvl).setWidth 8

/-- WAIT `01 000 iii` (R69). -/
def waitWord (t : TimeName) : UopWord := 0x40 ||| t.code.setWidth 8

/-- CTRL `10 ffffff` (R69). -/
def ctrlWord (fn : BitVec 6) : UopWord := 0x80 ||| fn.setWidth 8

/-- END `10 000000` (R69, R94). -/
def endWord : UopWord := ctrlWord 0

/-- SETRDY `10 000001` (R69, R95). -/
def setrdyWord : UopWord := ctrlWord 1

/-- CLRRDY `10 000010` (R69, R96). -/
def clrrdyWord : UopWord := ctrlWord 2

/-- The word of an instruction (R67, R69). -/
def encode : Instr → CodeWord
  | .cmd c b => .req (cmdWord c b)
  | .data b => .req (dataWord b)
  | .init => .req initWord
  | .setpinD4 v => .uop (setpinWord .d4 v)
  | .setpinD5 v => .uop (setpinWord .d5 v)
  | .setpinD6 v => .uop (setpinWord .d6 v)
  | .setpinD7 v => .uop (setpinWord .d7 v)
  | .setpinRS v => .uop (setpinWord .rs v)
  | .setpinE v => .uop (setpinWord .e v)
  | .setpinRW v => .uop (setpinWord .rw v)
  | .wait t => .uop (waitWord t)
  | .endOp => .uop endWord
  | .setrdy => .uop setrdyWord
  | .clrrdy => .uop clrrdyWord

/-! ## Words as spec/opcode_table.json numbers them -/

/-- The instruction the decoder reads from the word `w` of `nbits` bits: a row of 8 bits is a micro-op, a wider one a
request (whose twelve bits take two whole bytes); a bit above the format's width makes it no word (assumption 27). -/
def decodeTableWord (nbits w : Nat) : Option Instr :=
  let d : Option Decoded :=
    if nbits ≤ 8 then (if w < 256 then some (decodeUop (BitVec.ofNat 8 w)) else none)
    else (if w < 4096 then some (decodeReq (BitVec.ofNat 12 w)) else none)
  match d with
  | some (.instr i) => some i
  | some (.bad _) => none
  | none => none

/-- A row of the opcode table: the word's bits under `mask` are `pat` (R73). -/
structure TableRow where
  request : Bool
  mask : Nat
  pat : Nat
  deriving DecidableEq, Repr

/-- The row of each instruction, transcribed from spec/opcode_table.json. -/
def tableRow : Instr → TableRow
  | .cmd _ _ => ⟨true, 0xE00, 0x000⟩
  | .data _ => ⟨true, 0xF00, 0x400⟩
  | .init => ⟨true, 0xFFF, 0x800⟩
  | .setpinD4 _ => ⟨false, 0xFE, 0x00⟩
  | .setpinD5 _ => ⟨false, 0xFE, 0x08⟩
  | .setpinD6 _ => ⟨false, 0xFE, 0x10⟩
  | .setpinD7 _ => ⟨false, 0xFE, 0x18⟩
  | .setpinRS _ => ⟨false, 0xFE, 0x20⟩
  | .setpinE _ => ⟨false, 0xFE, 0x28⟩
  | .setpinRW _ => ⟨false, 0xFE, 0x30⟩
  | .wait _ => ⟨false, 0xF8, 0x40⟩
  | .endOp => ⟨false, 0xFF, 0x80⟩
  | .setrdy => ⟨false, 0xFF, 0x81⟩
  | .clrrdy => ⟨false, 0xFF, 0x82⟩

/-- The word is of the row's format and matches its pattern. -/
def TableRow.holds (r : TableRow) : CodeWord → Bool
  | .req w => r.request && w.toNat &&& r.mask == r.pat
  | .uop u => !r.request && u.toNat &&& r.mask == r.pat

end Sys2Proof
end

