-- ==== Sys2Proof/WellFormed.lean ====
section
/-!
DEFINITION. What is well formed: a construction's arguments (R21, R23, R139), an instruction for a block's `CFG` (R72),
and a micro-program (R11, R27, R94).
-/

namespace Sys2Proof

/-- `CFG` is legal unless `F = 1` and `N = 1` (R21). -/
def Cfg.legal (c : Cfg) : Bool := !(c.f && c.n)

/-- The only check of `TIMING`: `T_SHORT ≤ T_LONG` (R23). -/
def Timing.legal (t : Timing) : Bool := decide (t.tShort ≤ t.tLong)

/-- A construction is accepted when `CFG` and `TIMING` are legal and `RWP` says whether an `RW` handle is supplied (R139). -/
def ConstructArgs.legal (a : ConstructArgs) : Bool :=
  a.cfg.legal && a.timing.legal && (a.cfg.rwp == a.handles.rw.isSome)

/-- An instruction a block of this `CFG` can run: SETPIN RW needs the read/write handle (R72). -/
def Instr.wellFormed (c : Cfg) : Instr → Bool
  | .setpinRW _ => c.rwp
  | .cmd _ _ | .data _ | .init | .setpinD4 _ | .setpinD5 _ | .setpinD6 _ | .setpinD7 _ | .setpinRS _ | .setpinE _
  | .wait _ | .endOp | .setrdy | .clrrdy => true

/-- A micro-op word that a micro-program of a block of this `CFG` may hold (R72). -/
def uopWellFormed (c : Cfg) (u : UopWord) : Bool :=
  match decodeUop u with
  | .instr i => i.wellFormed c
  | .bad _ => false

/-- A micro-program: at most 127 micro-ops (R27), none bad (R72), END last and nowhere else (R26, R94). -/
def microProgramWellFormed (c : Cfg) (prog : List UopWord) : Bool :=
  decide (prog.length ≤ Config.maxMicroOps) && prog.all (uopWellFormed c) &&
    (prog.getLast? == some endWord) && prog.dropLast.all (· != endWord)

end Sys2Proof
end

