-- ==== Sys2Proof/Machine/State.lean ====
section
/-!
DEFINITION. The state of one block and its environment, as plain data (10_state.md; 60_exceptions.md R135, R137), the
reasons a step can stop, and the state right after reset (R37).
-/

namespace Sys2Proof.Machine

/-- The operation held in `REQ_OP`: 0 CMD, 1 DATA, 2 INIT; 3 is reserved and never written (R17, assumption 16). -/
inductive ReqOp where
  | cmd | data | init
  deriving DecidableEq, Repr

/-- `PHASE`: 0 IDLE, 1 EXEC, 2 DELAY; 3 is reserved and never entered (R25, U9). -/
inductive Phase where
  | idle | exec | delay
  deriving DecidableEq, Repr

/-- Status codes: 0 OK, 1 NotInitialized, 2 IllegalRequest; 3 is reserved and never returned (R116, R31, U9). -/
inductive Status where
  | ok | notInitialized | illegalRequest
  deriving DecidableEq, Repr

/-- `FAR_SYNC`, a ghost: whether the far end is in 4-bit mode and expects a high nibble next (R36). -/
inductive FarSync where
  | unknown | aligned
  deriving DecidableEq, Repr

/-- What an output latch holds: 0, 1, or `none` for `?`, never driven since construction (R14, R32). -/
abbrev Level := Option Bool

/-- The output latches `PIN[p]` (R32). `rw` stays `?` in a block without a read/write handle (assumption 17). -/
structure Pins where
  d4 : Level
  d5 : Level
  d6 : Level
  d7 : Level
  rs : Level
  e  : Level
  rw : Level
  deriving DecidableEq, Repr

/-- An event of the trace (R135). `done` is `Done(OK)`, the only kind of `Done`. -/
inductive Event where
  | set (p : Pin) (v : Bool)
  | wait (t : Nat)
  | accept (w : ReqWord)
  | reject (w : ReqWord) (code : Status)
  | done
  deriving DecidableEq, Repr

/-- An event stamped with the ghost clock when it takes effect (R55, R135). -/
structure Stamped where
  time  : Nat
  event : Event
  deriving DecidableEq, Repr

/-- What the block's environment gets back: a status (R119, R120, R124), a value of `STAT` (R30, R137), or that a
construction is refused (R139). -/
inductive Reply where
  | status (code : Status)
  | stat (v : BitVec 4)
  | constructionRefused
  deriving DecidableEq, Repr

/-- A move of the block's environment (R137), or the turn of the block, as one entry of the script `State.host`.
No move returns a delay early (R130) and none shares a pin (R133). -/
inductive HostMove where
  /-- the block's turn: one step of the sequencer, the port, or the return of an outstanding delay -/
  | run
  /-- the client submits a word (R119, R121) -/
  | submit (w : ReqWord)
  /-- the client reads `STAT` (R30) -/
  | readStat
  /-- only time passes: an idle client, a slow `set`, a `delay` that has not returned yet (R55) -/
  | elapse
  /-- from here on the delay capability never returns (R93): the script stays at this entry -/
  | neverReturns
  /-- a new block is constructed in the place of this one (R139, R142; whatever its handles, assumption 28) -/
  | reset (a : ConstructArgs)
  deriving DecidableEq, Repr

/-- The state of one block with its environment. -/
structure State where
  /-- `CFG` (R20, R22) -/
  cfg : Cfg
  /-- `TIMING` (R23, R22) -/
  timing : Timing
  /-- the pin handles, by `PIN_MAP` (R131, R10) -/
  handles : Handles
  /-- `REQ_OP` (R17) -/
  reqOp : ReqOp
  /-- `REQ_CLS` (R18) -/
  reqCls : DelayClass
  /-- `REQ_BYTE` (R19) -/
  reqByte : Byte
  /-- `PHASE` (R25) -/
  phase : Phase
  /-- `UPC` (R26) -/
  upc : Upc
  /-- `UPROG` (R27) -/
  uprog : List UopWord
  /-- `DREQ` (R28) -/
  dreq : Nat
  /-- `READY` (R29) -/
  ready : Bool
  /-- `LAST` (R31) -/
  last : Status
  /-- `PIN[p]` (R32) -/
  pins : Pins
  /-- `FAR_SYNC`, ghost (R36) -/
  farSync : FarSync
  /-- `now`, the ghost clock (R55) -/
  now : Nat
  /-- `t0` of the outstanding WAIT, ghost (R93, R55) -/
  delayFrom : Nat
  /-- the trace since construction, in execution order (R135) -/
  trace : List Stamped
  /-- the traces of the blocks that later constructions abandoned, newest first (R142, R136, assumption 9) -/
  earlierTraces : List (List Stamped)
  /-- the words submitted and neither accepted nor rejected yet, in order (R121, R53) -/
  held : List ReqWord
  /-- what the environment got back, in order (R120, R124, R137) -/
  replies : List Reply
  /-- the environment's coming moves; when it is empty the block has the turn (assumption 6) -/
  host : List HostMove
  /-- the number of steps taken: the counter the free value `Config.gap` is applied to (assumption 4) -/
  tick : Nat
  deriving DecidableEq, Repr

/-- Why the machine stops. -/
inductive Fault where
  /-- `MicrocodeFault` (R118): a step fetched a BadUop word, or a SETPIN RW with `CFG.RWP = 0`. Raised by the fetch and by
  `drivePin`; the state stays as it is, so every later step raises it again (recorded, never cleared). Safe. -/
  | microcodeFault
  /-- `UPC` is not below the length of `UPROG`, which R26 and R90 exclude. Raised by the fetch. Safe (assumption 12). -/
  | microProgramOverrun
  deriving DecidableEq, Repr

/-- Why an instruction is refused. -/
inductive Refusal where
  /-- raised by an arm of `exec` that has no meaning yet; no arm has it. Safe. -/
  | notModelled (mnemonic : String)
  deriving DecidableEq, Repr

/-- The latches of a block that has driven no pin (R37, R141). -/
def Pins.undriven : Pins :=
  { d4 := none, d5 := none, d6 := none, d7 := none, rs := none, e := none, rw := none }

/-- The construction arguments `State.reset` is built with (assumption 2). -/
def resetArgs : ConstructArgs :=
  { cfg := { n := true, f := false, rwp := true },
    timing := Config.defaultTiming,
    handles := { d4 := 0, d5 := 1, d6 := 2, d7 := 3, rs := 4, e := 5, rw := some 6 } }

/-- The state after construction (R37, R140), for the arguments `resetArgs` (assumption 2). `reqOp`, `reqCls`, `reqByte`,
`dreq`, `delayFrom` are unspecified by R37 and never read before written (assumption 3); `now` and `tick` start at 0
(assumption 4). -/
def State.reset : State :=
  { cfg := resetArgs.cfg
    timing := resetArgs.timing
    handles := resetArgs.handles
    reqOp := .cmd
    reqCls := .short
    reqByte := 0
    phase := .idle
    upc := 0
    uprog := []
    dreq := 0
    ready := false
    last := .ok
    pins := Pins.undriven
    farSync := .unknown
    now := 0
    delayFrom := 0
    trace := []
    earlierTraces := []
    held := []
    replies := []
    host := []
    tick := 0 }

end Sys2Proof.Machine
end

