-- ==== Sys2Proof/Machine/Operands.lean ====
section
/-!
DEFINITION. The operand forms of the block (R70, R100, R101): the nibble split, the settle class, the `TIMING` entry of
an index, the latch of a pin.
-/

namespace Sys2Proof.Machine

/-- The high nibble `BYTE[7:4]` (R70, R100). -/
def hiNibble (b : Byte) : Nibble := b.extractLsb' 4 4

/-- The low nibble `BYTE[3:0]` (R70, R100). -/
def loNibble (b : Byte) : Nibble := b.extractLsb' 0 4

/-- The settle delay of a CMD, `TIMING` index `3 + CLS` (R70, R103). -/
def settleOf : DelayClass → TimeName
  | .short => .short
  | .long => .long

/-- `TIMING[i]` (R23, R70). -/
def timingOf (t : Timing) : TimeName → Nat
  | .setup => t.tSetup
  | .pw => t.tPw
  | .hold => t.tHold
  | .short => t.tShort
  | .long => t.tLong
  | .powerOn => t.tPowerOn
  | .init1 => t.tInit1
  | .init2 => t.tInit2

/-- The latch `PIN[p]` (R32). The model reads latches in statements and in the trace decoder only; no micro-op does (R91). -/
def latch (q : Pins) : Pin → Level
  | .d4 => q.d4
  | .d5 => q.d5
  | .d6 => q.d6
  | .d7 => q.d7
  | .rs => q.rs
  | .e => q.e
  | .rw => q.rw

/-- `PIN[p] <- v` (R92). -/
def setLatch (q : Pins) (p : Pin) (v : Bool) : Pins :=
  match p with
  | .d4 => { q with d4 := some v }
  | .d5 => { q with d5 := some v }
  | .d6 => { q with d6 := some v }
  | .d7 => { q with d7 := some v }
  | .rs => { q with rs := some v }
  | .e => { q with e := some v }
  | .rw => { q with rw := some v }

/-- The code of `REQ_OP` (R17). -/
def reqOpCode : ReqOp → BitVec 2
  | .cmd => 0
  | .data => 1
  | .init => 2

/-- The code of a status (R116). -/
def statusCode : Status → BitVec 2
  | .ok => 0
  | .notInitialized => 1
  | .illegalRequest => 2

/-- The code of `PHASE` (R25). -/
def phaseCode : Phase → BitVec 2
  | .idle => 0
  | .exec => 1
  | .delay => 2

/-- `CFG` as its three bits `{RWP, F, N}` (R20). -/
def cfgBits (c : Cfg) : BitVec 3 := BitVec.ofBool c.rwp ++ BitVec.ofBool c.f ++ BitVec.ofBool c.n

/-- The word of the request latched in `REQ_OP`, `REQ_CLS`, `REQ_BYTE` (R67, R119). -/
def latchedWord (s : State) : ReqWord := reqWord (reqOpCode s.reqOp) s.reqCls.bit s.reqByte

/-- The microcontroller pin a logical pin drives, by `PIN_MAP` (R10, R131). -/
def handleOf (h : Handles) : Pin → Option Nat
  | .d4 => some h.d4
  | .d5 => some h.d5
  | .d6 => some h.d6
  | .d7 => some h.d7
  | .rs => some h.rs
  | .e => some h.e
  | .rw => h.rw

end Sys2Proof.Machine
end

