-- ==== Sys2Proof/Machine/Flags.lean ====
section
/-!
DEFINITION. The block's one flag, `READY` (R29), the modes it stands for (R128), and the view `STAT` (R30).
No other flag or condition code exists.
-/

namespace Sys2Proof.Machine

/-- `READY <- 1` (R95). -/
def setReady (s : State) : State := { s with ready := true }

/-- `READY <- 0` (R96). -/
def clearReady (s : State) : State := { s with ready := false }

/-- `BUSY`: 1 when `PHASE ≠ IDLE` (R30). -/
def busy (s : State) : Bool := decide (s.phase ≠ .idle)

/-- `STAT = {LAST, BUSY, READY}` (R30). -/
def stat (s : State) : BitVec 4 := statusCode s.last ++ BitVec.ofBool (busy s) ++ BitVec.ofBool s.ready

end Sys2Proof.Machine
end

