-- ==== Sys2Proof/Machine/Ops.lean ====
section
/-!
DEFINITION. The named operations every meaning is written over: time, the trace, the latches, accepting and rejecting a
request (the block's only exceptions, R119, R120), ending one (the return, R94, R124), waiting, and construction.
-/

namespace Sys2Proof.Machine

/-! ## Time and the trace -/

/-- Time passes before a step takes effect, by a free amount (R55(a), U6, assumption 4). DESIGN CHOICE: several blocks take
their amounts from the one `Config.gap`, each by its own step count (assumption 22). -/
def passTime (s : State) : State := { s with now := s.now + Config.gap s.tick, tick := s.tick + 1 }

/-- Record an event, stamped with `now` (R55, R135). -/
def record (e : Event) (s : State) : State := { s with trace := s.trace ++ [⟨s.now, e⟩] }

/-- Give the environment something back (R119, R120, R137). -/
def answer (r : Reply) (s : State) : State := { s with replies := s.replies ++ [r] }

/-! ## Micro-ops -/

/-- `UPC <- UPC + 1` (R26, R90). -/
def advance (s : State) : State := { s with upc := s.upc + 1 }

/-- `ExecSetpin(p, v)` (R92): the one store of the block (R101). SETPIN RW without a handle is a `MicrocodeFault`. -/
def drivePin (p : Pin) (v : Bool) (s : State) : Host.Outcome State Fault Refusal :=
  if p = .rw ∧ s.cfg.rwp = false then .fault .microcodeFault
  else .next (advance (record (.set p v) { s with pins := setLatch s.pins p v }))

/-- The first half of `ExecWait` (R93): the duration is requested and the WAIT is outstanding. -/
def startDelay (t : Nat) (s : State) : State :=
  record (.wait t) { s with dreq := t, delayFrom := s.now, phase := .delay }

/-- The second half of `ExecWait` (R93): the delay capability returns, at some time not before `t0 + DREQ` (R55(b), R130). -/
def returnDelay (s : State) : State :=
  advance { s with now := max s.now (s.delayFrom + s.dreq), phase := .exec }

/-- `FAR_SYNC` when the END of a request executes: INIT aligns it (R61), CMD and DATA leave it (R62). -/
def farSyncAtEnd (op : ReqOp) (f : FarSync) : FarSync :=
  match op with
  | .init => .aligned
  | .cmd => f
  | .data => f

/-- `ExecEnd` (R94, R124): the request returns `OK`. -/
def finish (s : State) : State :=
  answer (.status .ok)
    (record .done { s with last := .ok, phase := .idle, farSync := farSyncAtEnd s.reqOp s.farSync })

/-! ## Accepting, rejecting and holding a request -/

/-- `raise E` for a submitted word (R120): `LAST`, the reply and the event, nothing else. -/
def reject (w : ReqWord) (c : Status) (s : State) : State :=
  answer (.status c) (record (.reject w c) { s with last := c })

/-- The accept of R119: latch the request, take its micro-program, start at 0. -/
def accept (op : ReqOp) (cls : DelayClass) (b : Byte) (prog : List UopWord) (s : State) : State :=
  record (.accept (reqWord (reqOpCode op) cls.bit b))
    { s with reqOp := op, reqCls := cls, reqByte := b, uprog := prog, upc := 0, phase := .exec }

/-- A request submitted while busy is held (R121). -/
def hold (w : ReqWord) (s : State) : State := { s with held := s.held ++ [w] }

/-- `Submit(w)` of R119 for a word that decodes to a request: held while busy (R121), rejected when it needs `READY` and
`READY = 0` (R120), else accepted. -/
def submitRequest (op : ReqOp) (cls : DelayClass) (b : Byte) (needsReady : Bool) (prog : List UopWord) (s : State) :
    Host.Outcome State Fault Refusal :=
  if s.phase ≠ .idle then .next (hold (reqWord (reqOpCode op) cls.bit b) s)
  else if needsReady ∧ s.ready = false then
    .next (reject (reqWord (reqOpCode op) cls.bit b) .notInitialized s)
  else .next (accept op cls b prog s)

/-! ## Construction, the block's only reset -/

/-- Construction (R139, R140, R37): refused when the arguments are illegal, else the state of R37. -/
def construct (a : ConstructArgs) : Option State :=
  if a.legal then some { State.reset with cfg := a.cfg, timing := a.timing, handles := a.handles } else none

/-- A construction while a block exists (R142). The old block's request is abandoned and its trace ends without a `Done`;
the clock, the script and what the environment got back go on. A refused construction leaves the old block as it is
(assumptions 8, 9). DESIGN CHOICE: R142 speaks of a construction on the same pins; here the new block takes the old one's
place whatever its handles are (assumption 28). A block beside others, on pins of its own, is `addBlock` (R133). -/
def resetBlock (a : ConstructArgs) (s : State) : State :=
  match construct a with
  | none => answer .constructionRefused s
  | some n =>
    { n with now := s.now, tick := s.tick, host := s.host, replies := s.replies,
             earlierTraces := s.trace :: s.earlierTraces }

end Sys2Proof.Machine
end

