-- ==== Sys2Proof/Machine/BusCycle.lean ====
section
/-!
DEFINITION. The procedures NIBBLE and BYTE (R97, R98) and the micro-programs `Expand(REQ, CFG)` (R103, R104, R109, R110).
-/

namespace Sys2Proof.Machine

/-- `NIBBLE(n)`, one bus cycle, 9 micro-ops (R97). -/
def nibbleProg (n : Nibble) : List UopWord :=
  [ setpinWord .d4 (n.getLsbD 0),
    setpinWord .d5 (n.getLsbD 1),
    setpinWord .d6 (n.getLsbD 2),
    setpinWord .d7 (n.getLsbD 3),
    waitWord .setup,
    setpinWord .e true,
    waitWord .pw,
    setpinWord .e false,
    waitWord .hold ]

/-- `BYTE(rs, b)`, the two bus cycles of one byte, high nibble first, 19 micro-ops (R98, R44). -/
def byteProg (rs : Bool) (b : Byte) : List UopWord :=
  setpinWord .rs rs :: (nibbleProg (hiNibble b) ++ nibbleProg (loNibble b))

/-- `Expand(CMD(b, c))`, 21 micro-ops (R103). -/
def expandCmd (c : DelayClass) (b : Byte) : List UopWord :=
  byteProg false b ++ [waitWord (settleOf c), endWord]

/-- `Expand(DATA(b))`, 21 micro-ops (R104). -/
def expandData (b : Byte) : List UopWord :=
  byteProg true b ++ [waitWord .short, endWord]

/-- The function-set byte `FS = 0x20 | (N << 3) | (F << 2)` (R110). -/
def functionSetByte (c : Cfg) : Byte :=
  0x20 ||| (BitVec.ofBool c.n).setWidth 8 <<< 3 ||| (BitVec.ofBool c.f).setWidth 8 <<< 2

/-- The micro-op that drives `RW` low, in a block with a read/write handle (R109 entry 3). -/
def initRwProg (c : Cfg) : List UopWord := if c.rwp then [setpinWord .rw false] else []

/-- `Expand(INIT)`, `126 + RWP` micro-ops (R109). -/
def expandInit (c : Cfg) : List UopWord :=
  [clrrdyWord, setpinWord .e false, setpinWord .rs false] ++ initRwProg c
    ++ [waitWord .powerOn]
    ++ nibbleProg 0x3 ++ [waitWord .init1]
    ++ nibbleProg 0x3 ++ [waitWord .init2]
    ++ nibbleProg 0x3 ++ [waitWord .short]
    ++ nibbleProg 0x2 ++ [waitWord .short]
    ++ byteProg false (functionSetByte c) ++ [waitWord .short]
    ++ byteProg false 0x08 ++ [waitWord .short]
    ++ byteProg false 0x01 ++ [waitWord .long]
    ++ byteProg false 0x06 ++ [waitWord .short]
    ++ [setrdyWord, endWord]

/-- `Expand(REQ, CFG)` of a latched request (R27). -/
def expand (op : ReqOp) (cls : DelayClass) (b : Byte) (c : Cfg) : List UopWord :=
  match op with
  | .cmd => expandCmd cls b
  | .data => expandData b
  | .init => expandInit c

/-- The event a micro-op word records when it executes, if any (R92 to R96, R135); END's `Done` is recorded by `finish`. -/
def uopEvent (t : Timing) (u : UopWord) : Option Event :=
  match decodeUop u with
  | .instr (.setpinD4 v) => some (.set .d4 v)
  | .instr (.setpinD5 v) => some (.set .d5 v)
  | .instr (.setpinD6 v) => some (.set .d6 v)
  | .instr (.setpinD7 v) => some (.set .d7 v)
  | .instr (.setpinRS v) => some (.set .rs v)
  | .instr (.setpinE v) => some (.set .e v)
  | .instr (.setpinRW v) => some (.set .rw v)
  | .instr (.wait n) => some (.wait (timingOf t n))
  | .instr .endOp => some .done
  | .instr .setrdy => none
  | .instr .clrrdy => none
  | .instr (.cmd _ _) => none
  | .instr (.data _) => none
  | .instr .init => none
  | .bad _ => none

/-- The events of a micro-program in execution order (R51, R103, R109). -/
def progEvents (t : Timing) (prog : List UopWord) : List Event := prog.filterMap (uopEvent t)

/-- The time an event asks for before anything later may happen: the duration of a `Wait`, else 0 (R55(b)). -/
def eventDelay : Event → Nat
  | .wait t => t
  | .set _ _ => 0
  | .accept _ => 0
  | .reject _ _ => 0
  | .done => 0

/-- The sum of the WAITs of a micro-program (R100, R155). -/
def progDelay (t : Timing) (prog : List UopWord) : Nat := ((progEvents t prog).map eventDelay).sum

/-- The minimum duration of one NIBBLE (R100, R155). -/
def cycleTime (t : Timing) : Nat := t.tSetup + t.tPw + t.tHold

/-- The table of R155: the minimum duration of an accepted request, from `Accept` to `Done`. -/
def minDuration (t : Timing) : ReqOp → DelayClass → Nat
  | .cmd, .short => 2 * cycleTime t + t.tShort
  | .cmd, .long => 2 * cycleTime t + t.tLong
  | .data, _ => 2 * cycleTime t + t.tShort
  | .init, _ => t.tPowerOn + t.tInit1 + t.tInit2 + 5 * t.tShort + t.tLong + 12 * cycleTime t

end Sys2Proof.Machine
end

