-- ==== Sys2Proof/Machine/MicroOps.lean ====
section
/-!
DEFINITION. The micro-ops SETPIN (one meaning per pin), WAIT, END, SETRDY and CLRRDY (R92 to R96). A step runs them only
while `PHASE = EXEC` (R90); the meanings themselves check no phase (assumption 14).
-/

namespace Sys2Proof.Machine

/-- SETPIN D4 (R92). -/
def execSetpinD4 (v : Bool) (s : State) : Host.Outcome State Fault Refusal := drivePin .d4 v s

/-- SETPIN D5 (R92). -/
def execSetpinD5 (v : Bool) (s : State) : Host.Outcome State Fault Refusal := drivePin .d5 v s

/-- SETPIN D6 (R92). -/
def execSetpinD6 (v : Bool) (s : State) : Host.Outcome State Fault Refusal := drivePin .d6 v s

/-- SETPIN D7 (R92). -/
def execSetpinD7 (v : Bool) (s : State) : Host.Outcome State Fault Refusal := drivePin .d7 v s

/-- SETPIN RS (R92). -/
def execSetpinRS (v : Bool) (s : State) : Host.Outcome State Fault Refusal := drivePin .rs v s

/-- SETPIN E (R92). -/
def execSetpinE (v : Bool) (s : State) : Host.Outcome State Fault Refusal := drivePin .e v s

/-- SETPIN RW (R92): `MicrocodeFault` with `CFG.RWP = 0`. -/
def execSetpinRW (v : Bool) (s : State) : Host.Outcome State Fault Refusal := drivePin .rw v s

/-- WAIT (R93), up to the call of the delay capability; its return is a later step (assumption 5). -/
def execWait (n : TimeName) (s : State) : Host.Outcome State Fault Refusal :=
  .next (startDelay (timingOf s.timing n) s)

/-- END (R94). -/
def execEnd (s : State) : Host.Outcome State Fault Refusal := .next (finish s)

/-- SETRDY (R95). -/
def execSetrdy (s : State) : Host.Outcome State Fault Refusal := .next (advance (setReady s))

/-- CLRRDY (R96). -/
def execClrrdy (s : State) : Host.Outcome State Fault Refusal := .next (advance (clearReady s))

end Sys2Proof.Machine
end

