-- ==== Sys2Proof/Machine/Requests.lean ====
section
/-!
DEFINITION. The requests CMD, DATA and INIT (R103, R104, R109): the meaning of an instruction of format REQ is the
submission of its word at the request port (R119 to R122).
-/

namespace Sys2Proof.Machine

/-- CMD (R103): accepted when Ready, `NotInitialized` otherwise. -/
def execCmd (cls : DelayClass) (b : Byte) (s : State) : Host.Outcome State Fault Refusal :=
  submitRequest .cmd cls b true (expandCmd cls b) s

/-- DATA (R104): accepted when Ready, `NotInitialized` otherwise; its class bit is 0. -/
def execData (b : Byte) (s : State) : Host.Outcome State Fault Refusal :=
  submitRequest .data .short b true (expandData b) s

/-- INIT (R109): accepted in every mode (R108); its class bit and byte are 0. -/
def execInit (s : State) : Host.Outcome State Fault Refusal :=
  submitRequest .init .short 0 false (expandInit s.cfg) s

end Sys2Proof.Machine
end

