-- ==== Sys2Proof/Machine/Dispatch.lean ====
section
/-!
DEFINITION. One arm per instruction: each calls the meaning of its row of spec/opcode_table.json.
-/

namespace Sys2Proof.Machine

def exec (i : Instr) (s : State) : Host.Outcome State Fault Refusal :=
  match i with
  -- requests (R103, R104, R109)
  | .cmd cls b => Sys2Proof.Machine.execCmd cls b s
  | .data b => Sys2Proof.Machine.execData b s
  | .init => Sys2Proof.Machine.execInit s
  -- micro-ops (R92 to R96)
  | .setpinD4 v => Sys2Proof.Machine.execSetpinD4 v s
  | .setpinD5 v => Sys2Proof.Machine.execSetpinD5 v s
  | .setpinD6 v => Sys2Proof.Machine.execSetpinD6 v s
  | .setpinD7 v => Sys2Proof.Machine.execSetpinD7 v s
  | .setpinRS v => Sys2Proof.Machine.execSetpinRS v s
  | .setpinE v => Sys2Proof.Machine.execSetpinE v s
  | .setpinRW v => Sys2Proof.Machine.execSetpinRW v s
  | .wait n => Sys2Proof.Machine.execWait n s
  | .endOp => Sys2Proof.Machine.execEnd s
  | .setrdy => Sys2Proof.Machine.execSetrdy s
  | .clrrdy => Sys2Proof.Machine.execClrrdy s

end Sys2Proof.Machine
end

