-- ==== Sys2Proof/Machine/Sequencer.lean ====
section
/-!
DEFINITION. The turns of one step: the request port (R119 to R122), micro-op fetch (R90), the return of a delay (R93), and
the moves of the environment (R137).
-/

namespace Sys2Proof.Machine

/-- The port while IDLE: the oldest submitted word is decoded and accepted or rejected (R119, R122); with no word the
block stays idle. -/
def portTurn (s : State) : Host.Outcome State Fault Refusal :=
  match s.held with
  | [] => .next s
  | w :: rest =>
    match decodeReq w with
    | .bad _ => .next (reject w .illegalRequest { s with held := rest })
    | .instr i => exec i { s with held := rest }

/-- `u <- UPROG[UPC]` (R90, R48). -/
def fetch (s : State) : Option UopWord := s.uprog[s.upc.toNat]?

/-- One micro-op (R90). -/
def fetchTurn (s : State) : Host.Outcome State Fault Refusal :=
  match fetch s with
  | none => .fault .microProgramOverrun
  | some u =>
    match decodeUop u with
    | .bad _ => .fault .microcodeFault
    | .instr i => exec i s

/-- The block's turn, by its phase (R25, R90, R93, R119). -/
def blockTurn (s : State) : Host.Outcome State Fault Refusal :=
  match s.phase with
  | .idle => portTurn s
  | .exec => fetchTurn s
  | .delay => .next (returnDelay s)

/-- One step's move: the environment's when its script says so, else the block's (R137, assumption 6). -/
def turn (s : State) : Host.Outcome State Fault Refusal :=
  match s.host with
  | [] => blockTurn s
  | .run :: rest => blockTurn { s with host := rest }
  | .neverReturns :: _ => if s.phase = .delay then .next s else blockTurn s
  | .elapse :: rest => .next { s with host := rest }
  | .submit w :: rest => .next (hold w { s with host := rest })
  | .readStat :: rest => .next (answer (.stat (stat s)) { s with host := rest })
  | .reset a :: rest => .next (resetBlock a { s with host := rest })

/-- A micro-op word placed where the sequencer fetches next: at `UPC` in `UPROG`, a shorter micro-program filled up with
END words (assumption 1). -/
def placeUop (u : UopWord) (s : State) : State :=
  { s with
    phase := .exec
    uprog := s.uprog.take s.upc.toNat ++ List.replicate (s.upc.toNat - s.uprog.length) endWord ++
      u :: s.uprog.drop (s.upc.toNat + 1)
    host := .run :: s.host }

/-- A request word placed where the port takes the next one, with the sequencer idle (assumption 1). -/
def placeReq (w : ReqWord) (s : State) : State :=
  { s with phase := .idle, held := w :: s.held, host := .run :: s.host }

/-- A word as spec/opcode_table.json numbers it, placed for the very next step: 8 bits a micro-op, more a request. -/
def placeTableWord (nbits w : Nat) (s : State) : State :=
  if nbits ≤ 8 then placeUop (BitVec.ofNat 8 w) s else placeReq (BitVec.ofNat 12 w) s

end Sys2Proof.Machine
end

