-- ==== Sys2Proof/Machine/Step.lean ====
section
/-!
DEFINITION. The step: time passes (R55), then one move is made, the block's or its environment's.
-/

namespace Sys2Proof.Machine

/-- One step. -/
def step (s : State) : Host.Outcome State Fault Refusal := turn (passTime s)

/-- The word of an opcode-table row placed so that the next step runs it (assumption 1). -/
def State.withFetchWord (s : State) (nbits w : Nat) : State := placeTableWord nbits w s

end Sys2Proof.Machine
end

