-- ==== Sys2Proof/Machine/Instances.lean ====
section
/-!
DEFINITION. Several blocks beside one another (R133): each has its own state and its own script, they share nothing, and
a host that would let two share a microcontroller pin has no move (R137, U11).
-/

namespace Sys2Proof.Machine

/-- The microcontroller pins a block drives, by `PIN_MAP` (R10, R131). -/
def pinsUsed (h : Handles) : List Nat := [h.d4, h.d5, h.d6, h.d7, h.rs, h.e] ++ h.rw.toList

/-- Two blocks own disjoint pins (R133). -/
def apart (a b : State) : Bool := (pinsUsed a.handles).all fun p => !(pinsUsed b.handles).contains p

/-- All blocks own disjoint pins (R133). -/
def allApart : List State → Bool
  | [] => true
  | s :: ss => ss.all (apart s) && allApart ss

/-- One block more, constructed on pins that no other block owns (R133, R139). DESIGN CHOICE: its step count and clock start
at 0, and its free times are `Config.gap` of that count, as every block's are (assumption 22). -/
def addBlock (a : ConstructArgs) (bs : List State) : Option (List State) :=
  match construct a with
  | none => none
  | some n => if allApart (n :: bs) then some (n :: bs) else none

/-- Block number `k` takes a step; there is no such move when it stops, or when its pins would be another's. -/
def stepAt (k : Nat) (bs : List State) : Option (List State) :=
  match bs[k]? with
  | none => none
  | some s =>
    match step s with
    | .next t => if allApart (bs.set k t) then some (bs.set k t) else none
    | .fault _ => none
    | .refused _ => none

end Sys2Proof.Machine
end

