-- ==== Sys2Proof/Machine/Pseudo.lean ====
section
/-!
DEFINITION. The pseudo-instructions and their expansion to requests (R78 to R89). They are informative: surrounding
software, outside the block (R5). Their byte values are the spec's own, from general knowledge (G10 to G12, assumption 21).
-/

namespace Sys2Proof.Machine

/-- A bit at a place of a byte. -/
def bitAt (v : Bool) (k : Nat) : Byte := (BitVec.ofBool v).setWidth 8 <<< k

/-- `set_cgram a` (R84). -/
def setCgramReq (a : BitVec 6) : Instr := .cmd .short (0x40 ||| a.setWidth 8)

/-- `set_ddram a` (R85). -/
def setDdramReq (a : BitVec 7) : Instr := .cmd .short (0x80 ||| a.setWidth 8)

/-- The DDRAM address `base(r) + c` of a row and column, with `base(0) = 0x00` and `base(1) = 0x40` (R88). -/
def cursorAddress : CursorPos → BitVec 7
  | .row0 c => 0x00 + c
  | .row1 c => 0x40 + c.setWidth 7

/-- The requests a pseudo-instruction expands to (R78 to R89). DESIGN CHOICE: R83 binds the operands of `function_set` to the
block's `CFG`; here any pair expands by R83's formula, `n = f = 1` too (assumption 29). -/
def expandPseudo : Pseudo → List Instr
  | .clear => [.cmd .long 0x01]
  | .home => [.cmd .long 0x02]
  | .entryMode i s => [.cmd .short (0x04 ||| bitAt i 1 ||| bitAt s 0)]
  | .displayCtl d c b => [.cmd .short (0x08 ||| bitAt d 2 ||| bitAt c 1 ||| bitAt b 0)]
  | .shift sc rl => [.cmd .short (0x10 ||| bitAt sc 3 ||| bitAt rl 2)]
  | .functionSet n f => [.cmd .short (0x20 ||| bitAt n 3 ||| bitAt f 2)]
  | .setCgram a => [setCgramReq a]
  | .setDdram a => [setDdramReq a]
  | .putc c => [.data c]
  | .puts s => s.map .data
  | .cursor pos => [setDdramReq (cursorAddress pos)]
  | .glyph i rows back =>
    setCgramReq (i ++ 0#3) :: (rows.toList.map fun p => .data (p &&& 0x1F)) ++ [setDdramReq back]

end Sys2Proof.Machine
end

