-- ==== Sys2Proof/Machine/Receiver.lean ====
section
/-!
DEFINITION. The spec's reference trace decoder (R64): the bus cycles a receiver latching at the falling enable edge reads
from a trace, the possible spurious latches it reports apart, and their frames.
-/

namespace Sys2Proof.Machine

/-- A bus cycle as the receiver latches it: `RS` and the four data levels (R64, R60). -/
structure Cycle where
  rs : Level
  d7 : Level
  d6 : Level
  d5 : Level
  d4 : Level
  deriving DecidableEq, Repr

/-- A frame (R64): a single nibble, a byte, or cycles that make neither (an unknown level, a lone half, two levels of `RS`;
assumption 19). -/
inductive Frame where
  | single (rs : Bool) (n : Nibble)
  | byte (rs : Bool) (b : Byte)
  | garbled
  deriving DecidableEq, Repr

/-- What the latches present (R60). -/
def presented (q : Pins) : Cycle := { rs := q.rs, d7 := q.d7, d6 := q.d6, d5 := q.d5, d4 := q.d4 }

/-- The latches after an event: only `Set` drives a pin (R32). -/
def pinsAfter (q : Pins) : Event → Pins
  | .set p v => setLatch q p v
  | .wait _ => q
  | .accept _ => q
  | .reject _ _ => q
  | .done => q

/-- Is the event a falling enable edge, from the given previous level of `E`? (R92, R64) -/
def fallsFrom (prev : Level) (q : Pins) : Event → Bool
  | .set p v => decide (p = .e) && !v && decide (q.e = prev)
  | .wait _ => false
  | .accept _ => false
  | .reject _ _ => false
  | .done => false

/-- The bus cycles of a trace, from given latches (R64). -/
def cyclesFrom (q : Pins) : List Event → List Cycle
  | [] => []
  | e :: es =>
    if fallsFrom (some true) q e then presented q :: cyclesFrom (pinsAfter q e) es
    else cyclesFrom (pinsAfter q e) es

/-- `Cycles(trace)`, from the latches of a new block (R64, R37). -/
def cycles (t : List Event) : List Cycle := cyclesFrom Pins.undriven t

/-- The number of `Set(E, 0)` events whose previous level is `?`, the possible spurious latches (R64, R112). -/
def spuriousFrom (q : Pins) : List Event → Nat
  | [] => 0
  | e :: es => (if fallsFrom none q e then 1 else 0) + spuriousFrom (pinsAfter q e) es

/-- `RS` and the nibble `{D7, D6, D5, D4}` of a cycle whose levels are all known (R64, R33). -/
def cycleValue (c : Cycle) : Option (Bool × Nibble) :=
  match c.rs, c.d7, c.d6, c.d5, c.d4 with
  | some rs, some b3, some b2, some b1, some b0 =>
    some (rs, BitVec.ofBool b3 ++ BitVec.ofBool b2 ++ BitVec.ofBool b1 ++ BitVec.ofBool b0)
  | _, _, _, _, _ => none

/-- A single-nibble frame (R64). -/
def singleFrame (c : Cycle) : Frame :=
  match cycleValue c with
  | some (rs, n) => .single rs n
  | none => .garbled

/-- The frame `(rs, {hi, lo})` of a pair of cycles with a common `RS` (R64). -/
def pairFrame (hi lo : Cycle) : Frame :=
  match cycleValue hi, cycleValue lo with
  | some (rs, h), some (rs', l) => if rs = rs' then .byte rs (h ++ l) else .garbled
  | _, _ => .garbled

/-- The cycles grouped in consecutive pairs (R64). -/
def pairFrames : List Cycle → List Frame
  | hi :: lo :: cs => pairFrame hi lo :: pairFrames cs
  | [_] => [.garbled]
  | [] => []

/-- `Frames(cycles, k)`: the first `k` cycles single, the rest in pairs (R64). -/
def frames (cs : List Cycle) (k : Nat) : List Frame := (cs.take k).map singleFrame ++ pairFrames (cs.drop k)

end Sys2Proof.Machine
end

