-- ==== Sys2Proof/Safety.lean ====
section
/-!
DEFINITION. What counts as a safe run, in the terms the claims use: the invariants of a block, the timing and the language
of its trace, the end of a request (R136), and the hazards software must respect that a stream of requests can show
(R145, R146, R148, R151).
-/

namespace Sys2Proof.Machine

/-- `k` steps, stopping at the first fault or refusal. -/
def run : Nat → State → Host.Outcome State Fault Refusal
  | 0, s => .next s
  | k + 1, s =>
    match step s with
    | .next t => run k t
    | .fault r => .fault r
    | .refused r => .refused r

/-- The events of a trace without their stamps. -/
def events (s : State) : List Event := s.trace.map (·.event)

/-- A request has ended (R136): its `Done` or `Reject` is recorded and `PHASE = IDLE`. -/
def requestEnded (s : State) : Bool :=
  decide (s.phase = .idle) &&
    match s.trace.getLast? with
    | some ⟨_, .done⟩ => true
    | some ⟨_, .reject _ _⟩ => true
    | _ => false

/-! ## The invariant of the block's own state -/

/-- What every step keeps of the block's state, and every construction has. -/
structure Inv (s : State) : Prop where
  /-- the construction arguments are legal (R21, R23, R139) -/
  legal : ConstructArgs.legal ⟨s.cfg, s.timing, s.handles⟩ = true
  /-- `UPROG` is the expansion of the latched request (R27, R57) -/
  program : s.phase ≠ .idle → s.uprog = expand s.reqOp s.reqCls s.reqByte s.cfg
  /-- `UPC` is inside `UPROG` (R26) -/
  inside : s.phase ≠ .idle → s.upc.toNat < s.uprog.length
  /-- an outstanding delay is the WAIT at `UPC` (R28, R93) -/
  waiting : s.phase = .delay → ∃ n, fetch s = some (waitWord n) ∧ s.dreq = timingOf s.timing n
  /-- a block without a read/write handle never drives `RW` (R32, R72, assumption 17) -/
  noRw : s.cfg.rwp = false → s.pins.rw = none
  /-- a transfer is in progress only in a Ready block (R114, R120) -/
  transferReady : s.phase ≠ .idle → s.reqOp ≠ .init → s.ready = true
  /-- during INIT, `READY = 1` only before CLRRDY and after SETRDY (R109, R114) -/
  initReady : s.phase ≠ .idle → s.reqOp = .init → s.ready = true →
    s.upc = 0 ∨ s.upc.toNat = s.uprog.length - 1
  /-- a Ready block is framed, but for INIT's last micro-ops and its first (R61, R63; through the block alone, R148, since
  framing lost behind its back has no move, assumption 23) -/
  framed : s.ready = true → s.farSync = .aligned ∨ (s.phase ≠ .idle ∧ s.reqOp = .init)

/-! ## The timing of the trace -/

/-- The earliest time of anything after an event (R55(b)). -/
def due (e : Stamped) : Nat := e.time + eventDelay e.event

/-- The stamps of a trace respect the order of its events and every WAIT in it (R55). -/
def Timed (t : List Stamped) : Prop := t.Pairwise fun a b => due a ≤ b.time

/-- The earliest stamp a later event can get: while a delay is outstanding, not before it is over (R55(b), R130). -/
def horizon (s : State) : Nat :=
  match s.phase with
  | .idle => s.now
  | .exec => s.now
  | .delay => max s.now (s.delayFrom + s.dreq)

/-- The trace is timed, and all of it is due by the horizon. -/
def TraceTimed (s : State) : Prop :=
  Timed s.trace ∧ ∀ e ∈ s.trace, e.time ≤ s.now ∧ due e ≤ horizon s

/-! ## The language of the trace -/

/-- A request that has ended, as the trace shows it: rejected, or accepted and run to its END. -/
inductive Ended where
  | rejected (w : ReqWord) (code : Status)
  | completed (op : ReqOp) (cls : DelayClass) (b : Byte)
  deriving DecidableEq, Repr

/-- The events of an ended request (R103, R104, R109, R120, R135). -/
def endedEvents (c : Cfg) (t : Timing) : Ended → List Event
  | .rejected w code => [.reject w code]
  | .completed op cls b =>
    .accept (reqWord (reqOpCode op) cls.bit b) :: progEvents t (expand op cls b c)

/-- How many micro-ops of the request in progress have recorded their event. -/
def recorded (s : State) : Nat :=
  match s.phase with
  | .idle => 0
  | .exec => s.upc.toNat
  | .delay => s.upc.toNat + 1

/-- The events of the request in progress. -/
def openEvents (s : State) : List Event :=
  match s.phase with
  | .idle => []
  | .exec => .accept (latchedWord s) :: progEvents s.timing (s.uprog.take (recorded s))
  | .delay => .accept (latchedWord s) :: progEvents s.timing (s.uprog.take (recorded s))

/-- The trace is the traces of the ended requests, then of the one in progress (R41, R53, R135). -/
def TraceFollows (s : State) : Prop :=
  ∃ done : List Ended, events s = done.flatMap (endedEvents s.cfg s.timing) ++ openEvents s

/-- The events of one bus cycle (R97). -/
def cycleEvents (t : Timing) (b0 b1 b2 b3 : Bool) : List Event :=
  [.set .d4 b0, .set .d5 b1, .set .d6 b2, .set .d7 b3, .wait t.tSetup, .set .e true, .wait t.tPw, .set .e false,
    .wait t.tHold]

/-- The trace of a CMD or DATA between its `Accept` and `Done`, as R103 and R104 write it out: 20 events. -/
def transferEvents (t : Timing) (rs : Bool) (b : Byte) (settle : Nat) : List Event :=
  .set .rs rs :: cycleEvents t (b.getLsbD 4) (b.getLsbD 5) (b.getLsbD 6) (b.getLsbD 7)
    ++ cycleEvents t (b.getLsbD 0) (b.getLsbD 1) (b.getLsbD 2) (b.getLsbD 3) ++ [.wait settle]

/-- The trace of INIT between its `Accept` and `Done` (R109): `123 + RWP` events. -/
def initEvents (c : Cfg) (t : Timing) : List Event :=
  [.set .e false, .set .rs false] ++ (if c.rwp then [.set .rw false] else []) ++ [.wait t.tPowerOn]
    ++ cycleEvents t true true false false ++ [.wait t.tInit1]
    ++ cycleEvents t true true false false ++ [.wait t.tInit2]
    ++ cycleEvents t true true false false ++ [.wait t.tShort]
    ++ cycleEvents t false true false false ++ [.wait t.tShort]
    ++ transferEvents t false (functionSetByte c) t.tShort
    ++ transferEvents t false 0x08 t.tShort
    ++ transferEvents t false 0x01 t.tLong
    ++ transferEvents t false 0x06 t.tShort

/-! ## The pins -/

/-- The level the micro-ops of a program leave `E` at, if they drive it. -/
def enableAfter (prog : List UopWord) : Level :=
  prog.foldl (fun v u => if u = setpinWord .e true then some true
    else if u = setpinWord .e false then some false else v) none

/-- `E` is as the micro-ops executed so far left it; it is not high before the first of them drives it, nor at rest (R94). -/
def EnableTracks (s : State) : Prop :=
  match s.phase with
  | .idle => s.pins.e ≠ some true
  | .exec => if (enableAfter (s.uprog.take s.upc.toNat)).isSome
      then s.pins.e = enableAfter (s.uprog.take s.upc.toNat) else s.pins.e ≠ some true
  | .delay => if (enableAfter (s.uprog.take s.upc.toNat)).isSome
      then s.pins.e = enableAfter (s.uprog.take s.upc.toNat) else s.pins.e ≠ some true

/-- The first pin event of a list of events. -/
def firstSet (es : List Event) : Option (Pin × Bool) :=
  es.findSome? fun e =>
    match e with
    | .set p v => some (p, v)
    | .wait _ => none
    | .accept _ => none
    | .reject _ _ => none
    | .done => none

/-- The first pin event of a block is INIT's `Set(E, 0)`; before it no pin is driven and the block is not Ready (R141). -/
def FirstDrive (s : State) : Prop :=
  firstSet (events s) = some (.e, false) ∨
    (firstSet (events s) = none ∧ s.pins = Pins.undriven ∧ s.ready = false ∧
      (s.phase ≠ .idle → s.reqOp = .init ∧ s.upc.toNat ≤ 1))

/-! ## Hazards (R145, R146, R151) -/

/-- The instruction bytes that need the long settle delay: clear 0x01 and home 0x02 (R78, R79, R145). -/
def needsLong (b : Byte) : Bool := b == 0x01 || b == 0x02

/-- The delay-class hazard of R145: a CMD of class SHORT whose instruction needs the long settle delay. -/
def classHazard : Instr → Bool
  | .cmd .short b => needsLong b
  | .cmd .long _ => false
  | .data _ | .init => false
  | .setpinD4 _ | .setpinD5 _ | .setpinD6 _ | .setpinD7 _ | .setpinRS _ | .setpinE _ | .setpinRW _
  | .wait _ | .endOp | .setrdy | .clrrdy => false

/-- Each `TIMING` value is at least a far end's minimum (R146): the host's duty. -/
def timingMeets (t least : Timing) : Bool :=
  decide (least.tSetup ≤ t.tSetup) && decide (least.tPw ≤ t.tPw) && decide (least.tHold ≤ t.tHold) &&
  decide (least.tShort ≤ t.tShort) && decide (least.tLong ≤ t.tLong) && decide (least.tPowerOn ≤ t.tPowerOn) &&
  decide (least.tInit1 ≤ t.tInit1) && decide (least.tInit2 ≤ t.tInit2)

/-- Where the shared address counter was last pointed (R151): CGRAM by 0x40 to 0x7F, DDRAM by 0x80 to 0xFF. -/
inductive Addressing where
  | ddram | cgram
  deriving DecidableEq, Repr

/-- The addressing mode after a request (R84, R85, R151); clear and home point to DDRAM address 0, as INIT does. -/
def addressingAfter (m : Addressing) : Instr → Addressing
  | .cmd _ b =>
    if b.getLsbD 7 then .ddram else if b.getLsbD 6 then .cgram else if needsLong b then .ddram else m
  | .init => .ddram
  | .data _ => m
  | .setpinD4 _ | .setpinD5 _ | .setpinD6 _ | .setpinD7 _ | .setpinRS _ | .setpinE _ | .setpinRW _
  | .wait _ | .endOp | .setrdy | .clrrdy => m

end Sys2Proof.Machine
end

