-- ==== Sys2Proof/Certificates/Slice0/Obligations.lean ====
section
/-!
DEFINITION. The statements for the provers. Each docstring names the rules of spec/ it comes from.
-/

open Sys2Proof Sys2Proof.Machine

/-! ## Encoding -/

/-- Words written out from the encodings of R67 and R69 decode to their instructions (95_test_vectors.md 2.1, 2.2). -/
def Obligations.KnownWordsDecode : Prop :=
  decodeReq 0b000100000001 = .instr (.cmd .long 0x01) ∧
  decodeReq 0b000000000000 = .instr (.cmd .short 0x00) ∧
  decodeReq 0b010001000001 = .instr (.data 0x41) ∧
  decodeReq 0b100000000000 = .instr .init ∧
  decodeUop 0b00000001 = .instr (.setpinD4 true) ∧
  decodeUop 0b00011000 = .instr (.setpinD7 false) ∧
  decodeUop 0b00101001 = .instr (.setpinE true) ∧
  decodeUop 0b00110000 = .instr (.setpinRW false) ∧
  decodeUop 0b01000111 = .instr (.wait .init2) ∧
  decodeUop 0b10000000 = .instr .endOp ∧
  decodeUop 0b10000001 = .instr .setrdy ∧
  decodeUop 0b10000010 = .instr .clrrdy

/-- Decoding the word of any instruction gives the instruction back (R67, R69, R71, R72). -/
def Obligations.DecodeOfEncodeIsSame : Prop :=
  ∀ i : Instr, decode (encode i) = .instr i

/-- Every word has one meaning: a word that decodes is the word of what it decodes to (R71, R72, R73). -/
def Obligations.EncodeOfDecodeIsSame : Prop :=
  ∀ (w : CodeWord) (i : Instr), decode w = .instr i → encode i = w

/-- `DecodeReq` of R71, line by line, and an illegal word's rejection: `LAST = IllegalRequest`, no pin driven. -/
def Obligations.RequestDecodingTable : Prop :=
  (∀ w : ReqWord,
    (w.getLsbD 9 = true → ∃ why, decodeReq w = .bad why) ∧
    (w.getLsbD 9 = false → w.extractLsb' 10 2 = 0 →
      decodeReq w = .instr (.cmd (if w.getLsbD 8 then .long else .short) (w.extractLsb' 0 8))) ∧
    (w.getLsbD 9 = false → w.extractLsb' 10 2 = 1 → w.getLsbD 8 = false →
      decodeReq w = .instr (.data (w.extractLsb' 0 8))) ∧
    (w.getLsbD 9 = false → w.extractLsb' 10 2 = 2 → w.getLsbD 8 = false → w.extractLsb' 0 8 = 0#8 →
      decodeReq w = .instr .init) ∧
    (w.getLsbD 9 = false → w.extractLsb' 10 2 = 1 → w.getLsbD 8 = true → ∃ why, decodeReq w = .bad why) ∧
    (w.getLsbD 9 = false → w.extractLsb' 10 2 = 2 → (w.getLsbD 8 = true ∨ w.extractLsb' 0 8 ≠ 0#8) →
      ∃ why, decodeReq w = .bad why) ∧
    (w.getLsbD 9 = false → w.extractLsb' 10 2 = 3 → ∃ why, decodeReq w = .bad why)) ∧
  (∀ (w : ReqWord) (why : DecodeError) (rest : List ReqWord) (s : State), decodeReq w = .bad why → s.host = [] →
    s.phase = .idle → s.held = w :: rest →
    ∃ t, step s = .next t ∧ t.last = .illegalRequest ∧ t.pins = s.pins)

/-- `DecodeUop` of R72, line by line over all 256 words. -/
def Obligations.MicroOpDecodingTable : Prop :=
  ∀ u : UopWord,
    (∀ p v, u.extractLsb' 6 2 = 0 → u.extractLsb' 3 3 = p.code → u.extractLsb' 1 2 = 0 → u.getLsbD 0 = v →
      decodeUop u = .instr (setpin p v)) ∧
    (∀ n : TimeName, u.extractLsb' 6 2 = 1 → u.extractLsb' 3 3 = 0 → u.extractLsb' 0 3 = n.code →
      decodeUop u = .instr (.wait n)) ∧
    (u = 0x80 → decodeUop u = .instr .endOp) ∧
    (u = 0x81 → decodeUop u = .instr .setrdy) ∧
    (u = 0x82 → decodeUop u = .instr .clrrdy) ∧
    ((u.extractLsb' 6 2 = 0 ∧ (u.extractLsb' 3 3 = 7 ∨ u.extractLsb' 1 2 ≠ 0)) ∨
        (u.extractLsb' 6 2 = 1 ∧ u.extractLsb' 3 3 ≠ 0) ∨
        (u.extractLsb' 6 2 = 2 ∧ u ≠ 0x80 ∧ u ≠ 0x81 ∧ u ≠ 0x82) ∨ u.extractLsb' 6 2 = 3 →
      ∃ why, decodeUop u = .bad why)

/-! ## Construction, reset and the status view -/

/-- The state after construction (R37), for any arguments it is accepted for; the pin handles are the arguments' too. -/
def Obligations.ConstructionGivesResetState : Prop :=
  ∀ (a : ConstructArgs) (n : State), construct a = some n →
    n.ready = false ∧ n.phase = .idle ∧ n.upc = 0 ∧ n.uprog = [] ∧ n.last = .ok ∧ n.cfg = a.cfg ∧ n.timing = a.timing ∧
    n.handles = a.handles ∧ (∀ p, latch n.pins p = none) ∧ n.farSync = .unknown

/-- When a construction is refused (R139, R21, R23). -/
def Obligations.ConstructionRefusedExactly : Prop :=
  ∀ a : ConstructArgs,
    construct a = none ↔
      (a.cfg.f = true ∧ a.cfg.n = true) ∨ a.timing.tLong < a.timing.tShort ∨ a.cfg.rwp ≠ a.handles.rw.isSome

/-- `State.reset` is the construction of the model's own arguments (assumption 2), and those are legal. -/
def Obligations.ResetIsAConstruction : Prop :=
  construct resetArgs = some State.reset ∧ State.reset.timing = Config.defaultTiming

/-- `STAT` (R30): bit 0 `READY`, bit 1 `BUSY`, bits 3:2 the code of `LAST`; the client may read it in any phase, and a
read gives it back and changes nothing but the clock and the environment's own record (the record and the script are the
model's, assumptions 6, 25). -/
def Obligations.StatusViewReadable : Prop :=
  (∀ s : State,
    ((stat s).getLsbD 0 = true ↔ s.ready = true) ∧ ((stat s).getLsbD 1 = true ↔ s.phase ≠ .idle) ∧
    (s.last = .ok → (stat s).extractLsb' 2 2 = 0#2) ∧ (s.last = .notInitialized → (stat s).extractLsb' 2 2 = 1#2) ∧
    (s.last = .illegalRequest → (stat s).extractLsb' 2 2 = 2#2)) ∧
  (∀ (s : State) (rest : List HostMove), s.host = .readStat :: rest →
    ∃ t, step s = .next t ∧ t.replies = s.replies ++ [.stat (stat s)] ∧
      { t with now := s.now, tick := s.tick, host := s.host, replies := s.replies } = s)

/-! ## Micro-ops -/

/-- SETPIN D4, D5, D6, D7, RS, E, and RW with a handle (R92): the latch takes the level, the event is recorded stamped
with the clock, `UPC` advances, the phase stays. -/
def Obligations.SetpinDrivesItsPin : Prop :=
  ∀ (p : Pin) (v : Bool) (s : State), (p = .rw → s.cfg.rwp = true) →
    ∃ t, exec (setpin p v) s = .next t ∧ latch t.pins p = some v ∧ t.trace = s.trace ++ [⟨s.now, .set p v⟩] ∧
      t.upc = s.upc + 1 ∧ t.phase = s.phase

/-- The frame of SETPIN (R92, R32): every other latch and everything else is unchanged. -/
def Obligations.SetpinFrame : Prop :=
  ∀ (p : Pin) (v : Bool) (s t : State), exec (setpin p v) s = .next t →
    (∀ r, r ≠ p → latch t.pins r = latch s.pins r) ∧
    { t with pins := s.pins, trace := s.trace, upc := s.upc } = s

/-- WAIT, up to the call of the delay capability (R93): the duration is requested, the event is stamped with the clock,
the delay is outstanding, and nothing else changes (`UPC` included; that a WAIT is two steps is assumption 5). -/
def Obligations.WaitStartsDelay : Prop :=
  ∀ (n : TimeName) (s : State),
    exec (.wait n) s = .next { s with
      dreq := timingOf s.timing n, delayFrom := s.now, phase := .delay,
      trace := s.trace ++ [⟨s.now, .wait (timingOf s.timing n)⟩] }

/-- The `TIMING` entry of each WAIT word 0x40 to 0x47 (R23, R93). -/
def Obligations.WaitWordsNameTheTimings : Prop :=
  ∀ t : Timing,
    [0x40, 0x41, 0x42, 0x43, 0x44, 0x45, 0x46, 0x47].map (uopEvent t) =
      [t.tSetup, t.tPw, t.tHold, t.tShort, t.tLong, t.tPowerOn, t.tInit1, t.tInit2].map fun d => some (.wait d)

/-- The return of an outstanding delay (R93, R55, R130): it is never early, the block goes on at the next micro-op, and nothing
else of it changes. No upper bound is stated on when it returns, as R55(c) gives none. R93 and U5 leave the return to the
delay capability: that it is a step of its own is assumption 5, and that with an empty script the very next step is it is
assumption 6. -/
def Obligations.DelayReturnsNoEarlier : Prop :=
  ∀ s : State, s.phase = .delay → s.host = [] →
    ∃ t, step s = .next t ∧ t.phase = .exec ∧ t.upc = s.upc + 1 ∧ s.delayFrom + s.dreq ≤ t.now ∧ s.now ≤ t.now ∧
      { t with phase := s.phase, upc := s.upc, now := s.now, tick := s.tick } = s

/-- A delay capability that never returns leaves the block in `PHASE = DELAY` for ever (R93): a hang, not a completion
(how the script says so is assumption 6). -/
def Obligations.HungDelayNeverCompletes : Prop :=
  ∀ (k : Nat) (s : State) (rest : List HostMove), s.phase = .delay → s.host = .neverReturns :: rest →
    ∃ t, run k s = .next t ∧ t.phase = .delay ∧ { t with now := s.now, tick := s.tick } = s

/-- END (R94, R61, R62): `LAST = OK`, `PHASE = IDLE`, `Done` recorded and returned to the client; the ghost `FAR_SYNC` is
aligned by INIT (recognised by `REQ_OP`, assumption 10) and left by CMD and DATA; nothing else changes, `UPC`, `READY` and
the pins included. -/
def Obligations.EndFinishesTheRequest : Prop :=
  ∀ s : State,
    exec .endOp s = .next { s with
      last := .ok, phase := .idle, trace := s.trace ++ [⟨s.now, .done⟩], replies := s.replies ++ [.status .ok],
      farSync := if s.reqOp = .init then .aligned else s.farSync }

/-- SETRDY and CLRRDY (R95, R96): `READY` and `UPC`, nothing else, no event. -/
def Obligations.ReadyMicroOps : Prop :=
  ∀ s : State,
    exec .setrdy s = .next { s with ready := true, upc := s.upc + 1 } ∧
    exec .clrrdy s = .next { s with ready := false, upc := s.upc + 1 }

/-- Only INIT's micro-program holds SETRDY, as its next-to-last entry, and CLRRDY, as its first (R95, R96). -/
def Obligations.OnlyInitHoldsReadyMicroOps : Prop :=
  ∀ (op : ReqOp) (cls : DelayClass) (b : Byte) (c : Cfg) (k : Nat),
    ((expand op cls b c)[k]? = some setrdyWord ↔ op = .init ∧ k + 2 = (expand op cls b c).length) ∧
    ((expand op cls b c)[k]? = some clrrdyWord ↔ op = .init ∧ k = 0)

/-! ## Requests -/

/-- CMD in an idle, Ready block is accepted (R103, R119): the request is latched, its micro-program starts at 0. -/
def Obligations.CmdAcceptedWhenReady : Prop :=
  ∀ (c : DelayClass) (b : Byte) (s : State), s.phase = .idle → s.ready = true →
    exec (.cmd c b) s = .next { s with
      reqOp := .cmd, reqCls := c, reqByte := b, uprog := expandCmd c b, upc := 0, phase := .exec,
      trace := s.trace ++ [⟨s.now, .accept (cmdWord c b)⟩] }

/-- DATA in an idle, Ready block is accepted (R104, R119). -/
def Obligations.DataAcceptedWhenReady : Prop :=
  ∀ (b : Byte) (s : State), s.phase = .idle → s.ready = true →
    exec (.data b) s = .next { s with
      reqOp := .data, reqCls := .short, reqByte := b, uprog := expandData b, upc := 0, phase := .exec,
      trace := s.trace ++ [⟨s.now, .accept (dataWord b)⟩] }

/-- INIT in an idle block is accepted in both modes (R108, R109, R119). -/
def Obligations.InitAcceptedInEveryMode : Prop :=
  ∀ s : State, s.phase = .idle →
    exec .init s = .next { s with
      reqOp := .init, reqCls := .short, reqByte := 0, uprog := expandInit s.cfg, upc := 0, phase := .exec,
      trace := s.trace ++ [⟨s.now, .accept 0x800⟩] }

/-- CMD and DATA in an idle block that is not Ready are rejected (R116, R120, R128): `LAST`, the status returned and the
`Reject` event, nothing else. -/
def Obligations.TransferRejectedWhenNotReady : Prop :=
  ∀ s : State, s.phase = .idle → s.ready = false →
    (∀ c b, exec (.cmd c b) s = .next { s with
      last := .notInitialized, trace := s.trace ++ [⟨s.now, .reject (cmdWord c b) .notInitialized⟩],
      replies := s.replies ++ [.status .notInitialized] }) ∧
    (∀ b, exec (.data b) s = .next { s with
      last := .notInitialized, trace := s.trace ++ [⟨s.now, .reject (dataWord b) .notInitialized⟩],
      replies := s.replies ++ [.status .notInitialized] })

/-- An illegal word is `IllegalRequest` whatever `READY` is (R122, R120): the port takes the word, sets `LAST`, returns the
status and records `Reject`, and nothing else but the clock changes. -/
def Obligations.IllegalWordRejectedInEveryMode : Prop :=
  ∀ (s : State) (w : ReqWord) (rest : List ReqWord) (why : DecodeError), s.host = [] → s.phase = .idle →
    s.held = w :: rest → decodeReq w = .bad why →
    step s = .next { s with
      now := s.now + Config.gap s.tick, tick := s.tick + 1, held := rest, last := .illegalRequest,
      trace := s.trace ++ [⟨s.now + Config.gap s.tick, .reject w .illegalRequest⟩],
      replies := s.replies ++ [.status .illegalRequest] }

/-- A request submitted while busy is held, neither accepted nor rejected (R121; behind the words held before it,
assumptions 7, 15). -/
def Obligations.RequestHeldWhileBusy : Prop :=
  ∀ s : State, s.phase ≠ .idle →
    (∀ c b, exec (.cmd c b) s = .next { s with held := s.held ++ [cmdWord c b] }) ∧
    (∀ b, exec (.data b) s = .next { s with held := s.held ++ [dataWord b] }) ∧
    exec .init s = .next { s with held := s.held ++ [0x800] }

/-- The client's submission of any word, legal or not, in any phase, puts it behind the words held already (R53, R121,
R137; the queue and the script are the model's, assumptions 6, 7); nothing else but the clock changes. -/
def Obligations.SubmittedWordIsQueued : Prop :=
  ∀ (s : State) (w : ReqWord) (rest : List HostMove), s.host = .submit w :: rest →
    step s = .next { s with
      now := s.now + Config.gap s.tick, tick := s.tick + 1, host := rest, held := s.held ++ [w] }

/-- The frame of the three requests in every phase and mode (R120, R123, R119): no pin, no `READY`, no configuration, no
ghost of the far end, no `DREQ`; a rejected or held one keeps the latched request, `UPROG` and `UPC` too. -/
def Obligations.RequestFrame : Prop :=
  ∀ (i : Instr) (s t : State), i.isRequest = true → exec i s = .next t →
    t.pins = s.pins ∧ t.ready = s.ready ∧ t.cfg = s.cfg ∧ t.timing = s.timing ∧ t.handles = s.handles ∧
    t.dreq = s.dreq ∧ t.delayFrom = s.delayFrom ∧ t.farSync = s.farSync ∧ t.now = s.now ∧
    t.earlierTraces = s.earlierTraces ∧ t.host = s.host ∧ t.tick = s.tick ∧
    (t.phase = s.phase → t.uprog = s.uprog ∧ t.upc = s.upc ∧ t.reqOp = s.reqOp ∧ t.reqCls = s.reqCls ∧
      t.reqByte = s.reqByte)

/-! ## A step -/

/-- A step in EXEC runs the micro-op at `UPC` (R90), after time has passed (R55); an entry `run` of the script only says
so (assumptions 4, 6). -/
def Obligations.StepRunsFetchedMicroOp : Prop :=
  ∀ (s : State) (u : UopWord) (i : Instr), s.phase = .exec → s.uprog[s.upc.toNat]? = some u → decodeUop u = .instr i →
    (s.host = [] → step s = exec i { s with now := s.now + Config.gap s.tick, tick := s.tick + 1 }) ∧
    (∀ rest, s.host = .run :: rest →
      step s = exec i { s with now := s.now + Config.gap s.tick, tick := s.tick + 1, host := rest })

/-- A step in IDLE runs the request whose word is the oldest at the port (R119, R53), after time has passed
(assumptions 4, 6, 7). -/
def Obligations.StepRunsSubmittedRequest : Prop :=
  ∀ (s : State) (w : ReqWord) (rest : List ReqWord) (i : Instr), s.phase = .idle → s.held = w :: rest →
    decodeReq w = .instr i →
    (s.host = [] → step s = exec i { s with now := s.now + Config.gap s.tick, tick := s.tick + 1, held := rest }) ∧
    (∀ more, s.host = .run :: more →
      step s = exec i { s with now := s.now + Config.gap s.tick, tick := s.tick + 1, held := rest, host := more })

/-- `MicrocodeFault` (R118, R72): SETPIN RW without a handle raises it; a step raises it exactly when it fetches a BadUop
word or a SETPIN RW (0x30, 0x31) with `CFG.RWP = 0`; no step is taken after it; and no expansion holds such a word. -/
def Obligations.MicrocodeFaultExactly : Prop :=
  (∀ (v : Bool) (s : State), s.cfg.rwp = false → exec (.setpinRW v) s = .fault .microcodeFault) ∧
  (∀ s : State,
    step s = .fault .microcodeFault ↔
      s.phase = .exec ∧
      (s.host = [] ∨ (∃ rest, s.host = .run :: rest) ∨ (∃ rest, s.host = .neverReturns :: rest)) ∧
      ∃ u, s.uprog[s.upc.toNat]? = some u ∧
        ((∃ why, decodeUop u = .bad why) ∨ ((u = 0x30 ∨ u = 0x31) ∧ s.cfg.rwp = false))) ∧
  (∀ (s : State) (k : Nat), step s = .fault .microcodeFault → run (k + 1) s = .fault .microcodeFault) ∧
  (∀ (op : ReqOp) (cls : DelayClass) (b : Byte) (c : Cfg), ∀ u ∈ expand op cls b c, uopWellFormed c u = true)

/-! ## The micro-programs -/

/-- NIBBLE(n) is the nine words of R97's table. -/
def Obligations.NibbleProgramWords : Prop :=
  ∀ n : Nibble,
    nibbleProg n =
      [0x00 ||| (BitVec.ofBool (n.getLsbD 0)).setWidth 8, 0x08 ||| (BitVec.ofBool (n.getLsbD 1)).setWidth 8,
        0x10 ||| (BitVec.ofBool (n.getLsbD 2)).setWidth 8, 0x18 ||| (BitVec.ofBool (n.getLsbD 3)).setWidth 8,
        0x40, 0x29, 0x41, 0x28, 0x42]

/-- CMD's and DATA's micro-programs, as words (R97, R98, R103, R104): 21 entries, high nibble first. -/
def Obligations.TransferProgramWords : Prop :=
  ∀ b : Byte,
    expandCmd .short b = 0x20 :: nibbleProg (b.extractLsb' 4 4) ++ nibbleProg (b.extractLsb' 0 4) ++ [0x43, 0x80] ∧
    expandCmd .long b = 0x20 :: nibbleProg (b.extractLsb' 4 4) ++ nibbleProg (b.extractLsb' 0 4) ++ [0x44, 0x80] ∧
    expandData b = 0x21 :: nibbleProg (b.extractLsb' 4 4) ++ nibbleProg (b.extractLsb' 0 4) ++ [0x43, 0x80] ∧
    (∀ c, (expandCmd c b).length = 21) ∧ (expandData b).length = 21

/-- The function-set byte of INIT (R110) is `0x20 | (N << 3) | (F << 2)`, one of 0x20, 0x24, 0x28 for a legal `CFG`. -/
def Obligations.FunctionSetByteOfCfg : Prop :=
  ∀ c : Cfg,
    (functionSetByte c).toNat = 0x20 + (if c.n then 8 else 0) + (if c.f then 4 else 0) ∧
    (c.legal = true → functionSetByte c = 0x20 ∨ functionSetByte c = 0x24 ∨ functionSetByte c = 0x28)

/-- INIT's micro-program by the places of R109's table, and its length `126 + r`. -/
def Obligations.InitProgramByPlace : Prop :=
  ∀ (c : Cfg) (r : Nat), r = (if c.rwp then 1 else 0) →
    (expandInit c).length = 126 + r ∧ (expandInit c).take 3 = [0x82, 0x28, 0x20] ∧
    (c.rwp = true → (expandInit c)[3]? = some 0x30) ∧ (expandInit c)[3 + r]? = some 0x45 ∧
    ((expandInit c).drop (4 + r)).take 10 = nibbleProg 0x3 ++ [0x46] ∧
    ((expandInit c).drop (14 + r)).take 10 = nibbleProg 0x3 ++ [0x47] ∧
    ((expandInit c).drop (24 + r)).take 10 = nibbleProg 0x3 ++ [0x43] ∧
    ((expandInit c).drop (34 + r)).take 10 = nibbleProg 0x2 ++ [0x43] ∧
    ((expandInit c).drop (44 + r)).take 20 = byteProg false (functionSetByte c) ++ [0x43] ∧
    ((expandInit c).drop (64 + r)).take 20 = byteProg false 0x08 ++ [0x43] ∧
    ((expandInit c).drop (84 + r)).take 20 = byteProg false 0x01 ++ [0x44] ∧
    ((expandInit c).drop (104 + r)).take 20 = byteProg false 0x06 ++ [0x43] ∧
    (expandInit c).drop (124 + r) = [0x81, 0x80]

/-- No expansion holds a BadUop word, or a SETPIN RW without a handle; each has at most 127 micro-ops and one END, its
last (R11, R26, R27, R72, R94). -/
def Obligations.ExpansionsAreWellFormed : Prop :=
  ∀ (op : ReqOp) (cls : DelayClass) (b : Byte) (c : Cfg), microProgramWellFormed c (expand op cls b c) = true

/-! ## The trace and its reference decoder -/

/-- The events of the micro-programs are the traces R103, R104 and R109 write out, then `Done`. -/
def Obligations.ProgramsRecordTheirTraces : Prop :=
  ∀ (c : Cfg) (t : Timing) (b : Byte),
    progEvents t (expandCmd .short b) = transferEvents t false b t.tShort ++ [.done] ∧
    progEvents t (expandCmd .long b) = transferEvents t false b t.tLong ++ [.done] ∧
    progEvents t (expandData b) = transferEvents t true b t.tShort ++ [.done] ∧
    progEvents t (expandInit c) = initEvents c t ++ [.done]

/-- The trace of a CMD or DATA decodes to exactly one frame, its `RS` and its byte, whatever the pins were (R44, R45,
R64). -/
def Obligations.TransferDecodesToItsFrame : Prop :=
  ∀ (q : Pins) (t : Timing) (rs : Bool) (b : Byte) (settle : Nat),
    frames (cyclesFrom q (transferEvents t rs b settle)) 0 = [.byte rs b]

/-- The trace of INIT decodes to R109's frames from any pins with `E` not high, as `E` is whenever a block is at rest
(`EnableTracks`, kept by every step: StepKeepsEnableLowAtRest); its first `Set(E, 0)` is a possible spurious latch exactly
when `E` was never driven (R64, R111, R112). -/
def Obligations.InitDecodesToItsFrames : Prop :=
  ∀ (q : Pins) (c : Cfg) (t : Timing), q.e ≠ some true →
    frames (cyclesFrom q (initEvents c t)) 4 =
      [.single false 3, .single false 3, .single false 3, .single false 2, .byte false (functionSetByte c),
        .byte false 0x08, .byte false 0x01, .byte false 0x06] ∧
    spuriousFrom q (initEvents c t) = (if q.e = none then 1 else 0)

/-! ## Time -/

/-- The bus times of R99, in every list of stamped events that respects the WAITs in it. Items 1 to 3, for the nine events
of a bus cycle and then any event: setup, pulse width, hold. Items 1, 4 and 5, for the twenty events of a transfer (`RS` at
place 0, rises at 6 and 15, falls at 8 and 17) and then any events: `RS` is set up before both rises and held after the
last fall, the rises are a bus cycle apart, and the event after any later `Wait(T_SETUP)`, such as the next request's first
rise, comes no sooner than hold, settle and setup after the last fall. -/
def Obligations.BusCycleMeetsItsTimes : Prop :=
  (∀ (t : Timing) (b0 b1 b2 b3 : Bool) (e0 e1 e2 e3 w0 rise w1 fall w2 after : Stamped),
    [e0, e1, e2, e3, w0, rise, w1, fall, w2].map (·.event) = cycleEvents t b0 b1 b2 b3 →
    Timed [e0, e1, e2, e3, w0, rise, w1, fall, w2, after] →
    e0.time + t.tSetup ≤ rise.time ∧ e1.time + t.tSetup ≤ rise.time ∧ e2.time + t.tSetup ≤ rise.time ∧
    e3.time + t.tSetup ≤ rise.time ∧ rise.time + t.tPw ≤ fall.time ∧ fall.time + t.tHold ≤ after.time) ∧
  (∀ (t : Timing) (rs : Bool) (b : Byte) (settle k : Nat) (l : List Stamped) (later : List Event)
      (reg rise1 rise2 fall2 next : Stamped),
    l.map (·.event) = transferEvents t rs b settle ++ later → Timed l →
    l[0]? = some reg → l[6]? = some rise1 → l[15]? = some rise2 → l[17]? = some fall2 →
    later[k]? = some (.wait t.tSetup) → l[20 + k + 1]? = some next →
    reg.event = .set .rs rs ∧ rise1.event = .set .e true ∧ rise2.event = .set .e true ∧ fall2.event = .set .e false ∧
    reg.time + t.tSetup ≤ rise1.time ∧ reg.time + t.tSetup ≤ rise2.time ∧
    rise1.time + (t.tSetup + t.tPw + t.tHold) ≤ rise2.time ∧
    (∀ x ∈ l.drop 20, fall2.time + t.tHold ≤ x.time) ∧
    fall2.time + t.tHold + settle + t.tSetup ≤ next.time)

/-- The minimum duration of an accepted request, from `Accept` to `Done`, is R155's: in every list of stamped events that
respects its WAITs and holds the request's events. -/
def Obligations.RequestMinimumDuration : Prop :=
  ∀ (c : Cfg) (t : Timing) (op : ReqOp) (cls : DelayClass) (b : Byte) (start finish : Stamped) (mid : List Stamped),
    (start :: (mid ++ [finish])).map (·.event) = endedEvents c t (.completed op cls b) →
    Timed (start :: (mid ++ [finish])) → start.time + minDuration t op cls ≤ finish.time

/-- The clock never goes back, in any step; and a step that ends an outstanding delay other than by a reset ends it no
earlier than its duration after its start (R55). -/
def Obligations.ClockNeverGoesBack : Prop :=
  ∀ s t : State, step s = .next t →
    s.now ≤ t.now ∧ (s.phase = .delay → t.phase = .exec → s.delayFrom + s.dreq ≤ t.now)

/-! ## Invariants of every step -/

/-- The invariants hold after every accepted construction (R37), `State.reset` among them (what of them is the model's is said
at StepKeepsInvariant, assumptions 5, 17, 23). -/
def Obligations.InvariantsAtConstruction : Prop :=
  ∀ (a : ConstructArgs) (n : State), construct a = some n →
    Inv n ∧ TraceTimed n ∧ TraceFollows n ∧ EnableTracks n ∧ FirstDrive n

/-- Every step keeps the block's invariant (`Inv`: R21 to R28, R32, R61, R63, R72, R114, R120, R139). Its clause that a Ready
block is framed (`Inv.framed`) is R148's through the block alone: R148 says framing can also be lost behind the block's back
while it is Ready, which has no move here (assumption 23, unsafe). Its clause that `RW` stays `?` without a handle
(`Inv.noRw`) is about a latch R32 does not give such a block (assumption 17), and an outstanding delay being the WAIT at
`UPC` (`Inv.waiting`) rests on a WAIT being two steps (assumption 5). -/
def Obligations.StepKeepsInvariant : Prop :=
  ∀ s t : State, Inv s → step s = .next t → Inv t

/-- A block that meets its invariant never stops: no `MicrocodeFault`, no overrun (a fault of the model's own, assumption 12),
no refusal (R26, R72, R118). -/
def Obligations.InvariantBlockNeverStops : Prop :=
  ∀ s : State, Inv s → ∃ t, step s = .next t

/-- Every step keeps the stamps of the trace in order and every WAIT in it respected (R55, R130). -/
def Obligations.StepKeepsTraceTimed : Prop :=
  ∀ s t : State, TraceTimed s → step s = .next t → TraceTimed t

/-- Every step keeps the trace a sequence of whole requests, each with exactly its events, then the events so far of the
request in progress (R41, R53, R103, R104, R109, R135): whatever the client, the host and the delays do between. -/
def Obligations.StepKeepsTraceLanguage : Prop :=
  ∀ s t : State, Inv s → TraceFollows s → step s = .next t → TraceFollows t

/-- Every step keeps `E` at the level the micro-ops so far left it, so `E` is not high at rest (R94). -/
def Obligations.StepKeepsEnableLowAtRest : Prop :=
  ∀ s t : State, Inv s → EnableTracks s → step s = .next t → EnableTracks t

/-- Every step keeps R141: the first pin event of a block is INIT's `Set(E, 0)`. -/
def Obligations.StepKeepsFirstPinEvent : Prop :=
  ∀ s t : State, Inv s → FirstDrive s → step s = .next t → FirstDrive t

/-! ## What only some steps change -/

/-- `CFG` and `TIMING` change by no step but a construction (R22). That the pin handles do not change either is the model's
(assumption 18), no clause of R22. -/
def Obligations.ConfigurationImmutable : Prop :=
  ∀ s t : State, step s = .next t → (∀ a rest, s.host ≠ .reset a :: rest) →
    t.cfg = s.cfg ∧ t.timing = s.timing ∧ t.handles = s.handles

/-- `READY` is set only by SETRDY and cleared only by CLRRDY and by a construction (R29, R128). -/
def Obligations.ReadyChangesOnlyByItsMicroOps : Prop :=
  ∀ s t : State, step s = .next t → t.ready ≠ s.ready →
    (s.phase = .exec ∧ s.uprog[s.upc.toNat]? = some 0x81 ∧ t.ready = true) ∨
    (s.phase = .exec ∧ s.uprog[s.upc.toNat]? = some 0x82 ∧ t.ready = false) ∨
    (∃ a rest, s.host = .reset a :: rest ∧ a.legal = true ∧ t.ready = false)

/-- A latch is written only by the SETPIN of its pin, or made unknown by a construction (R32, R142). -/
def Obligations.LatchesChangeOnlyBySetpin : Prop :=
  ∀ (s t : State) (p : Pin), step s = .next t → latch t.pins p ≠ latch s.pins p →
    (∃ v, s.phase = .exec ∧ s.uprog[s.upc.toNat]? = some (setpinWord p v) ∧ latch t.pins p = some v) ∨
    (∃ a rest, s.host = .reset a :: rest ∧ a.legal = true ∧ latch t.pins p = none)

/-- `REQ_OP`, `REQ_CLS`, `REQ_BYTE` and `UPROG` are written only when a request is accepted, with the expansion of that
request, or by a construction (R17 to R19, R27, R57). -/
def Obligations.ProgramWrittenOnlyAtAccept : Prop :=
  ∀ s t : State, step s = .next t → (∀ a rest, s.host ≠ .reset a :: rest) →
    (t.uprog = s.uprog ∧ t.reqOp = s.reqOp ∧ t.reqCls = s.reqCls ∧ t.reqByte = s.reqByte) ∨
    (s.phase = .idle ∧ t.phase = .exec ∧ t.upc = 0 ∧ s.held = latchedWord t :: t.held ∧
      t.uprog = expand t.reqOp t.reqCls t.reqByte s.cfg)

/-- The pins influence no step (R91, R101): two states that differ in their latches only step to states that differ in
their latches only. -/
def Obligations.PinsInfluenceNothing : Prop :=
  ∀ (s t : State) (q : Pins), step s = .next t → ∃ q', step { s with pins := q } = .next { t with pins := q' }

/-! ## Reset during operation -/

/-- A construction in any phase (R142, R63): the old request is abandoned and its trace ends as it stood, with no `Done`
added; the new block is in the state of R37 with every pin unknown, `FAR_SYNC` unknown, and then rejects every CMD and DATA
(how the traces of both blocks are kept is assumption 9; R142 speaks of the same pins, and that the handles may differ is
assumption 28). -/
def Obligations.ResetAbandonsTheRequest : Prop :=
  ∀ (s : State) (a : ConstructArgs) (rest : List HostMove), s.host = .reset a :: rest → a.legal = true →
    ∃ t, step s = .next t ∧ t.earlierTraces = s.trace :: s.earlierTraces ∧ t.trace = [] ∧ t.phase = .idle ∧
      t.ready = false ∧ t.upc = 0 ∧ t.uprog = [] ∧ t.last = .ok ∧ (∀ p, latch t.pins p = none) ∧
      t.farSync = .unknown ∧ t.cfg = a.cfg ∧ t.timing = a.timing ∧ s.now ≤ t.now ∧
      (∀ c b, ∃ u, exec (.cmd c b) t = .next u ∧ u.last = .notInitialized ∧ u.pins = t.pins) ∧
      (∀ b, ∃ u, exec (.data b) t = .next u ∧ u.last = .notInitialized ∧ u.pins = t.pins)

/-- The model's choice (assumptions 8, 28): a refused construction (R21, R23, R139) leaves the block that exists as it is
and says so. -/
def Obligations.RefusedResetChangesNothing : Prop :=
  ∀ (s : State) (a : ConstructArgs) (rest : List HostMove), s.host = .reset a :: rest → a.legal = false →
    ∃ t, step s = .next t ∧ t.replies = s.replies ++ [.constructionRefused] ∧
      { t with now := s.now, tick := s.tick, host := s.host, replies := s.replies } = s

/-! ## Whole requests -/

/-- CMD from submission to its end, with no environment move between (R103, R106, R62): the trace is R103's; the pins,
`READY`, `LAST`, `PHASE` are R106's; `FAR_SYNC` is left; the duration is at least R155's. That this takes 29 steps is the
model's: one for the accept of the word waiting at the port (assumptions 6, 7), one for each of 21 micro-ops, and one more
for each of 7 WAITs (assumption 5). -/
def Obligations.CmdRunsToItsEnd : Prop :=
  ∀ (c : DelayClass) (b : Byte) (rest : List ReqWord) (s : State), s.host = [] → s.phase = .idle → s.ready = true →
    s.held = cmdWord c b :: rest →
    ∃ t, run 29 s = .next t ∧
      events t = events s ++ .accept (cmdWord c b) ::
        (transferEvents s.timing false b (match c with | .short => s.timing.tShort | .long => s.timing.tLong) ++ [.done]) ∧
      t.pins.rs = some false ∧ t.pins.e = some false ∧ t.pins.d4 = some (b.getLsbD 0) ∧ t.pins.d5 = some (b.getLsbD 1) ∧
      t.pins.d6 = some (b.getLsbD 2) ∧ t.pins.d7 = some (b.getLsbD 3) ∧ t.pins.rw = s.pins.rw ∧
      t.ready = s.ready ∧ t.last = .ok ∧ t.phase = .idle ∧ t.farSync = s.farSync ∧ t.held = rest ∧
      t.replies = s.replies ++ [.status .ok] ∧ s.now + minDuration s.timing .cmd c ≤ t.now

/-- DATA from submission to its end, with no environment move between (R104, R106, R62): the trace is R104's; the pins,
`READY`, `LAST`, `PHASE` are R106's; `FAR_SYNC` is left; the duration is at least R155's. That this takes 29 steps is the
model's (assumptions 5, 6, 7, as for CMD). -/
def Obligations.DataRunsToItsEnd : Prop :=
  ∀ (b : Byte) (rest : List ReqWord) (s : State), s.host = [] → s.phase = .idle → s.ready = true →
    s.held = dataWord b :: rest →
    ∃ t, run 29 s = .next t ∧
      events t = events s ++ .accept (dataWord b) :: (transferEvents s.timing true b s.timing.tShort ++ [.done]) ∧
      t.pins.rs = some true ∧ t.pins.e = some false ∧ t.pins.d4 = some (b.getLsbD 0) ∧ t.pins.d5 = some (b.getLsbD 1) ∧
      t.pins.d6 = some (b.getLsbD 2) ∧ t.pins.d7 = some (b.getLsbD 3) ∧ t.pins.rw = s.pins.rw ∧
      t.ready = s.ready ∧ t.last = .ok ∧ t.phase = .idle ∧ t.farSync = s.farSync ∧ t.held = rest ∧
      t.replies = s.replies ++ [.status .ok] ∧ s.now + minDuration s.timing .data .short ≤ t.now

/-- INIT from submission to its end, with no environment move between, in either mode and from any pins (R109, R111, R114,
R61): its trace is a function of `CFG` and `TIMING` alone; it ends Ready, framed, with the pins of its last byte 0x06; the
duration is at least R155's. That this takes `172 + RWP` steps is the model's: one for the accept of the word waiting at the
port (assumptions 6, 7), one for each of `126 + RWP` micro-ops, and one more for each of 45 WAITs (assumption 5). -/
def Obligations.InitRunsToReady : Prop :=
  ∀ (rest : List ReqWord) (s : State), s.host = [] → s.phase = .idle → s.held = initWord :: rest →
    ∃ t, run (if s.cfg.rwp then 173 else 172) s = .next t ∧
      events t = events s ++ .accept initWord :: (initEvents s.cfg s.timing ++ [.done]) ∧
      t.pins = { d4 := some false, d5 := some true, d6 := some true, d7 := some false, rs := some false, e := some false,
                 rw := if s.cfg.rwp then some false else s.pins.rw } ∧
      t.ready = true ∧ t.last = .ok ∧ t.phase = .idle ∧ t.farSync = .aligned ∧ t.held = rest ∧
      t.replies = s.replies ++ [.status .ok] ∧ s.now + minDuration s.timing .init .short ≤ t.now

/-! ## Surrounding software and several blocks -/

/-- Each pseudo-instruction expands to the requests of its rule (R78 to R88, R105, R145): clear and home to one CMD of class
LONG, the seven others of the instruction register to one CMD of class SHORT with the rule's byte, `putc` and `puts` to one
DATA per character; a CMD of any of them, `glyph` included, is LONG exactly for clear and home, and none is the short-class
hazard. The bytes, and which bytes `needsLong` names (0x01, 0x02), are the spec's from general knowledge (assumption 21);
that `function_set` expands for operands other than the block's `CFG` is the model's (assumption 29). -/
def Obligations.PseudoInstructionsCarryTheirClass : Prop :=
  (∀ (p : Pseudo) (i : Instr), i ∈ expandPseudo p → classHazard i = false ∧ i.isRequest = true) ∧
  (∀ (p : Pseudo) (c : DelayClass) (b : Byte), .cmd c b ∈ expandPseudo p → (c = .long ↔ p = .clear ∨ p = .home)) ∧
  expandPseudo .clear = [.cmd .long 0x01] ∧ expandPseudo .home = [.cmd .long 0x02] ∧
  (∀ i s, ∃ b, expandPseudo (.entryMode i s) = [.cmd .short b] ∧ b.toNat = 4 + 2 * i.toNat + s.toNat) ∧
  (∀ d c k, ∃ b, expandPseudo (.displayCtl d c k) = [.cmd .short b] ∧
    b.toNat = 8 + 4 * d.toNat + 2 * c.toNat + k.toNat) ∧
  (∀ sc rl, ∃ b, expandPseudo (.shift sc rl) = [.cmd .short b] ∧ b.toNat = 16 + 8 * sc.toNat + 4 * rl.toNat) ∧
  (∀ n f, ∃ b, expandPseudo (.functionSet n f) = [.cmd .short b] ∧ b.toNat = 32 + 8 * n.toNat + 4 * f.toNat) ∧
  (∀ a, ∃ b, expandPseudo (.setCgram a) = [.cmd .short b] ∧ b.toNat = 64 + a.toNat) ∧
  (∀ a, ∃ b, expandPseudo (.setDdram a) = [.cmd .short b] ∧ b.toNat = 128 + a.toNat) ∧
  (∀ c, ∃ b, expandPseudo (.cursor (.row0 c)) = [.cmd .short b] ∧ b.toNat = 128 + c.toNat) ∧
  (∀ c, ∃ b, expandPseudo (.cursor (.row1 c)) = [.cmd .short b] ∧ b.toNat = 128 + 64 + c.toNat) ∧
  (∀ c, expandPseudo (.putc c) = [.data c]) ∧
  (∀ cs, (expandPseudo (.puts cs)).length = cs.length ∧ ∀ k : Nat, (expandPseudo (.puts cs))[k]? = cs[k]?.map .data)

/-- A glyph definition is R89's list of ten requests: set CGRAM `i << 3`, the eight rows in order as data, five bits each,
and set DDRAM to the address given. So the address counter ends on DDRAM, whatever it pointed to before (R151; that the
bytes of these two CMDs point it there, `addressingAfter`, is assumption 21). -/
def Obligations.GlyphRestoresTheAddress : Prop :=
  ∀ (i : BitVec 3) (rows : Vector Byte 8) (back : BitVec 7),
    (expandPseudo (.glyph i rows back)).length = 10 ∧
    (∃ b, (expandPseudo (.glyph i rows back))[0]? = some (.cmd .short b) ∧ b.toNat = 64 + 8 * i.toNat) ∧
    (∀ (k : Nat) (h : k < 8), ∃ b, (expandPseudo (.glyph i rows back))[k + 1]? = some (.data b) ∧
      b.toNat = rows[k].toNat % 32) ∧
    (∃ b, (expandPseudo (.glyph i rows back))[9]? = some (.cmd .short b) ∧ b.toNat = 128 + back.toNat) ∧
    (∀ m : Addressing, (expandPseudo (.glyph i rows back)).foldl addressingAfter m = .ddram)

/-- Blocks beside one another share nothing (R133). A block that can step alone, by no construction, can take that same
step among the others, whatever state they are in: it changes the block's own place in the list and no other. A step among
the others is a step of the block alone, and leaves their pins apart. How blocks stand beside one another, and that a
construction onto another's pins is no move, is assumption 22. -/
def Obligations.BlocksShareNothing : Prop :=
  (∀ (bs : List State) (k : Nat) (s t : State), allApart bs = true → bs[k]? = some s → step s = .next t →
    (∀ a rest, s.host ≠ .reset a :: rest) → stepAt k bs = some (bs.set k t)) ∧
  (∀ (bs bs' : List State) (k : Nat), stepAt k bs = some bs' →
    allApart bs' = true ∧ bs'.length = bs.length ∧ (∀ j, j ≠ k → bs'[j]? = bs[j]?) ∧
    ∃ s t, bs[k]? = some s ∧ bs'[k]? = some t ∧ step s = .next t)
end

