-- ==== Sys2Proof/Laws/Decode.lean ====
section
/-!
SUPPORT. What each field of an encoded word is, what each word builder decodes to, and which format each decoder gives.
-/

namespace Sys2Proof

theorem reqWord_op (op : BitVec 2) (c : Bool) (b : Byte) : (reqWord op c b).extractLsb' 10 2 = op := by
  ext i hi
  simp [reqWord]
  interval_cases i <;> simp

theorem reqWord_byte (op : BitVec 2) (c : Bool) (b : Byte) : (reqWord op c b).extractLsb' 0 8 = b := by
  ext i hi
  have h10 : i < 10 := by omega
  have h12 : i < 12 := by omega
  simp [reqWord, hi, h10, h12]

theorem reqWord_cls (op : BitVec 2) (c : Bool) (b : Byte) : (reqWord op c b)[8] = c := by
  simp [reqWord]

theorem reqWord_rsv (op : BitVec 2) (c : Bool) (b : Byte) : (reqWord op c b)[9] = false := by
  simp [reqWord]

/-- A request word with `RSV = 0` is put together again from its fields (R67). -/
theorem reqWord_fields (w : ReqWord) (h : w[9] = false) :
    reqWord (w.extractLsb' 10 2) w[8] (w.extractLsb' 0 8) = w := by
  ext i hi
  simp only [reqWord]
  interval_cases i <;> simp [h]

theorem decodeReq_cmdWord (c : DelayClass) (b : Byte) : decodeReq (cmdWord c b) = .instr (.cmd c b) := by
  cases c <;> simp [decodeReq, cmdWord, reqWord_op, reqWord_byte, reqWord_cls, reqWord_rsv, DelayClass.bit, classOfBit]

theorem decodeReq_dataWord (b : Byte) : decodeReq (dataWord b) = .instr (.data b) := by
  simp [decodeReq, dataWord, reqWord_op, reqWord_byte, reqWord_cls, reqWord_rsv]

theorem decodeReq_initWord : decodeReq initWord = .instr .init := rfl

theorem decodeUop_setpinWord (p : Pin) (v : Bool) : decodeUop (setpinWord p v) = .instr (setpin p v) := by
  cases p <;> cases v <;> rfl

theorem decodeUop_waitWord (n : TimeName) : decodeUop (waitWord n) = .instr (.wait n) := by
  cases n <;> rfl

theorem decodeUop_endWord : decodeUop endWord = .instr .endOp := rfl

theorem decodeUop_setrdyWord : decodeUop setrdyWord = .instr .setrdy := rfl

theorem decodeUop_clrrdyWord : decodeUop clrrdyWord = .instr .clrrdy := rfl

/-- What `decodeReq` gives, and from which words: three shapes and no other. -/
theorem decodeReq_instr {w : ReqWord} {i : Instr} (h : decodeReq w = .instr i) :
    (∃ c b, i = .cmd c b ∧ w = cmdWord c b) ∨ (∃ b, i = .data b ∧ w = dataWord b) ∨ (i = .init ∧ w = initWord) := by
  simp only [decodeReq, BitVec.getLsbD_eq_getElem (show 8 < 12 by omega),
    BitVec.getLsbD_eq_getElem (show 9 < 12 by omega)] at h
  have hw := reqWord_fields w
  generalize hc : w[8] = cls at h hw
  generalize hop : w.extractLsb' 10 2 = op at h hw
  generalize hb : w.extractLsb' 0 8 = b at h hw
  split at h
  · cases h
  · rename_i h9
    have hw := hw (by simpa using h9)
    split at h
    · rename_i h0
      refine .inl ⟨classOfBit cls, b, by simpa using h.symm, ?_⟩
      subst h0
      cases cls <;> simpa [cmdWord, classOfBit, DelayClass.bit] using hw.symm
    · split at h
      · rename_i h1
        split at h
        · cases h
        · rename_i hcls
          subst h1
          exact .inr (.inl ⟨b, by simpa using h.symm, by simpa [dataWord, hcls] using hw.symm⟩)
      · split at h
        · rename_i h2
          split at h
          · cases h
          · split at h
            · rename_i hcls hz
              subst h2 hz
              exact .inr (.inr ⟨by simpa using h.symm, by simpa [initWord, hcls] using hw.symm⟩)
            · cases h
        · cases h

/-- The words of the micro-op instructions, by shape. -/
inductive UopShape : UopWord → Instr → Prop where
  | setpin (p : Pin) (v : Bool) : UopShape (setpinWord p v) (setpin p v)
  | wait (n : TimeName) : UopShape (waitWord n) (.wait n)
  | endOp : UopShape endWord .endOp
  | setrdy : UopShape setrdyWord .setrdy
  | clrrdy : UopShape clrrdyWord .clrrdy

set_option maxRecDepth 4000 in
/-- The 25 micro-op words that decode are their instructions' own words (R73). -/
theorem decodeUop_encode : ∀ n : Fin 256, ∀ i, decodeUop (BitVec.ofFin n) = .instr i → encode i = .uop (BitVec.ofFin n) := by
  have key : ∀ n : Fin 256, (match decodeUop (BitVec.ofFin n) with
      | .instr i => decide (encode i = .uop (BitVec.ofFin n))
      | .bad _ => true) = true := by decide
  intro n i h
  have := key n
  rw [h] at this
  simpa using this

/-- What `decodeUop` gives, and from which words: the micro-op shapes and no other. -/
theorem decodeUop_instr {u : UopWord} {i : Instr} (h : decodeUop u = .instr i) : UopShape u i := by
  have he := decodeUop_encode u.toFin i h
  simp only [BitVec.ofFin_toFin] at he
  cases i with
  | cmd | data | init => simp [encode] at he
  | setpinD4 v => simp only [encode, CodeWord.uop.injEq] at he; exact he ▸ .setpin .d4 v
  | setpinD5 v => simp only [encode, CodeWord.uop.injEq] at he; exact he ▸ .setpin .d5 v
  | setpinD6 v => simp only [encode, CodeWord.uop.injEq] at he; exact he ▸ .setpin .d6 v
  | setpinD7 v => simp only [encode, CodeWord.uop.injEq] at he; exact he ▸ .setpin .d7 v
  | setpinRS v => simp only [encode, CodeWord.uop.injEq] at he; exact he ▸ .setpin .rs v
  | setpinE v => simp only [encode, CodeWord.uop.injEq] at he; exact he ▸ .setpin .e v
  | setpinRW v => simp only [encode, CodeWord.uop.injEq] at he; exact he ▸ .setpin .rw v
  | wait n => simp only [encode, CodeWord.uop.injEq] at he; exact he ▸ .wait n
  | endOp => simp only [encode, CodeWord.uop.injEq] at he; exact he ▸ .endOp
  | setrdy => simp only [encode, CodeWord.uop.injEq] at he; exact he ▸ .setrdy
  | clrrdy => simp only [encode, CodeWord.uop.injEq] at he; exact he ▸ .clrrdy

end Sys2Proof
end

