-- ==== Sys2Proof/Laws/Instances.lean ====
section
/-!
SUPPORT. Blocks beside one another: only their pin handles decide whether they are apart, and what a step among them is.
-/

namespace Sys2Proof.Machine

/-- Whether blocks are apart depends on their pin handles only. -/
theorem allApart_congr : ∀ {as bs : List State}, as.map (·.handles) = bs.map (·.handles) → allApart as = allApart bs
  | [], [], _ => rfl
  | a :: as, b :: bs, h => by
    simp only [List.map_cons, List.cons.injEq] at h
    have hall : ∀ {as bs : List State}, as.map (·.handles) = bs.map (·.handles) → as.all (apart a) = bs.all (apart b) := by
      intro as
      induction as with
      | nil => intro bs hb; cases bs <;> simp_all
      | cons x xs ih =>
        intro bs hb
        cases bs with
        | nil => simp at hb
        | cons y ys =>
          simp only [List.map_cons, List.cons.injEq] at hb
          simp [apart, h.1, hb.1, ih hb.2]
    simp [allApart, hall h.2, allApart_congr h.2]
  | [], _ :: _, h => by simp at h
  | _ :: _, [], h => by simp at h

/-- A block replaced by one with the same handles leaves the pins as they were. -/
theorem allApart_set {bs : List State} {k : Nat} {s t : State} (hs : bs[k]? = some s) (ht : t.handles = s.handles) :
    allApart (bs.set k t) = allApart bs := by
  refine allApart_congr (List.ext_getElem? fun j => ?_)
  by_cases hj : j = k
  · subst hj
    obtain ⟨hk, rfl⟩ := List.getElem?_eq_some_iff.mp hs
    simp [hk, ht]
  · simp [Ne.symm hj]

/-- What a step among blocks can do, said once. -/
theorem stepAt_cases {bs bs' : List State} {k : Nat} (h : stepAt k bs = some bs') :
    ∃ s t, bs[k]? = some s ∧ step s = .next t ∧ allApart (bs.set k t) = true ∧ bs' = bs.set k t := by
  unfold stepAt at h
  repeat (split at h <;> try cases h)
  exact ⟨_, _, ‹_›, ‹_›, ‹_›, rfl⟩

/-- The step of a block that goes on, among others it leaves apart. -/
theorem stepAt_next {bs : List State} {k : Nat} {s t : State} (hs : bs[k]? = some s) (ht : step s = .next t)
    (ha : allApart (bs.set k t) = true) : stepAt k bs = some (bs.set k t) := by
  simp [stepAt, hs, ht, ha]

end Sys2Proof.Machine
end

