-- ==== Sys2Proof/Laws/State.lean ====
section
/-!
SUPPORT. One lemma per field and update of State: what each named operation does to each field (all true by rfl), and
which latch each pin is. Proofs cite these by simp and unfold no record update.
-/

namespace Sys2Proof.Machine

variable (s : State)

/-! ## passTime (R55) -/

@[simp] theorem passTime_cfg : (passTime s).cfg = s.cfg := rfl
@[simp] theorem passTime_timing : (passTime s).timing = s.timing := rfl
@[simp] theorem passTime_handles : (passTime s).handles = s.handles := rfl
@[simp] theorem passTime_reqOp : (passTime s).reqOp = s.reqOp := rfl
@[simp] theorem passTime_reqCls : (passTime s).reqCls = s.reqCls := rfl
@[simp] theorem passTime_reqByte : (passTime s).reqByte = s.reqByte := rfl
@[simp] theorem passTime_phase : (passTime s).phase = s.phase := rfl
@[simp] theorem passTime_upc : (passTime s).upc = s.upc := rfl
@[simp] theorem passTime_uprog : (passTime s).uprog = s.uprog := rfl
@[simp] theorem passTime_dreq : (passTime s).dreq = s.dreq := rfl
@[simp] theorem passTime_ready : (passTime s).ready = s.ready := rfl
@[simp] theorem passTime_last : (passTime s).last = s.last := rfl
@[simp] theorem passTime_pins : (passTime s).pins = s.pins := rfl
@[simp] theorem passTime_farSync : (passTime s).farSync = s.farSync := rfl
@[simp] theorem passTime_now : (passTime s).now = s.now + Config.gap s.tick := rfl
@[simp] theorem passTime_delayFrom : (passTime s).delayFrom = s.delayFrom := rfl
@[simp] theorem passTime_trace : (passTime s).trace = s.trace := rfl
@[simp] theorem passTime_earlierTraces : (passTime s).earlierTraces = s.earlierTraces := rfl
@[simp] theorem passTime_held : (passTime s).held = s.held := rfl
@[simp] theorem passTime_replies : (passTime s).replies = s.replies := rfl
@[simp] theorem passTime_host : (passTime s).host = s.host := rfl
@[simp] theorem passTime_tick : (passTime s).tick = s.tick + 1 := rfl

/-! ## record (R135) -/

@[simp] theorem record_cfg (e : Event) : (record e s).cfg = s.cfg := rfl
@[simp] theorem record_timing (e : Event) : (record e s).timing = s.timing := rfl
@[simp] theorem record_handles (e : Event) : (record e s).handles = s.handles := rfl
@[simp] theorem record_reqOp (e : Event) : (record e s).reqOp = s.reqOp := rfl
@[simp] theorem record_reqCls (e : Event) : (record e s).reqCls = s.reqCls := rfl
@[simp] theorem record_reqByte (e : Event) : (record e s).reqByte = s.reqByte := rfl
@[simp] theorem record_phase (e : Event) : (record e s).phase = s.phase := rfl
@[simp] theorem record_upc (e : Event) : (record e s).upc = s.upc := rfl
@[simp] theorem record_uprog (e : Event) : (record e s).uprog = s.uprog := rfl
@[simp] theorem record_dreq (e : Event) : (record e s).dreq = s.dreq := rfl
@[simp] theorem record_ready (e : Event) : (record e s).ready = s.ready := rfl
@[simp] theorem record_last (e : Event) : (record e s).last = s.last := rfl
@[simp] theorem record_pins (e : Event) : (record e s).pins = s.pins := rfl
@[simp] theorem record_farSync (e : Event) : (record e s).farSync = s.farSync := rfl
@[simp] theorem record_now (e : Event) : (record e s).now = s.now := rfl
@[simp] theorem record_delayFrom (e : Event) : (record e s).delayFrom = s.delayFrom := rfl
@[simp] theorem record_trace (e : Event) : (record e s).trace = s.trace ++ [⟨s.now, e⟩] := rfl
@[simp] theorem record_earlierTraces (e : Event) : (record e s).earlierTraces = s.earlierTraces := rfl
@[simp] theorem record_held (e : Event) : (record e s).held = s.held := rfl
@[simp] theorem record_replies (e : Event) : (record e s).replies = s.replies := rfl
@[simp] theorem record_host (e : Event) : (record e s).host = s.host := rfl
@[simp] theorem record_tick (e : Event) : (record e s).tick = s.tick := rfl

/-! ## answer (R137) -/

@[simp] theorem answer_cfg (r : Reply) : (answer r s).cfg = s.cfg := rfl
@[simp] theorem answer_timing (r : Reply) : (answer r s).timing = s.timing := rfl
@[simp] theorem answer_handles (r : Reply) : (answer r s).handles = s.handles := rfl
@[simp] theorem answer_reqOp (r : Reply) : (answer r s).reqOp = s.reqOp := rfl
@[simp] theorem answer_reqCls (r : Reply) : (answer r s).reqCls = s.reqCls := rfl
@[simp] theorem answer_reqByte (r : Reply) : (answer r s).reqByte = s.reqByte := rfl
@[simp] theorem answer_phase (r : Reply) : (answer r s).phase = s.phase := rfl
@[simp] theorem answer_upc (r : Reply) : (answer r s).upc = s.upc := rfl
@[simp] theorem answer_uprog (r : Reply) : (answer r s).uprog = s.uprog := rfl
@[simp] theorem answer_dreq (r : Reply) : (answer r s).dreq = s.dreq := rfl
@[simp] theorem answer_ready (r : Reply) : (answer r s).ready = s.ready := rfl
@[simp] theorem answer_last (r : Reply) : (answer r s).last = s.last := rfl
@[simp] theorem answer_pins (r : Reply) : (answer r s).pins = s.pins := rfl
@[simp] theorem answer_farSync (r : Reply) : (answer r s).farSync = s.farSync := rfl
@[simp] theorem answer_now (r : Reply) : (answer r s).now = s.now := rfl
@[simp] theorem answer_delayFrom (r : Reply) : (answer r s).delayFrom = s.delayFrom := rfl
@[simp] theorem answer_trace (r : Reply) : (answer r s).trace = s.trace := rfl
@[simp] theorem answer_earlierTraces (r : Reply) : (answer r s).earlierTraces = s.earlierTraces := rfl
@[simp] theorem answer_held (r : Reply) : (answer r s).held = s.held := rfl
@[simp] theorem answer_replies (r : Reply) : (answer r s).replies = s.replies ++ [r] := rfl
@[simp] theorem answer_host (r : Reply) : (answer r s).host = s.host := rfl
@[simp] theorem answer_tick (r : Reply) : (answer r s).tick = s.tick := rfl

/-! ## advance (R90) -/

@[simp] theorem advance_cfg : (advance s).cfg = s.cfg := rfl
@[simp] theorem advance_timing : (advance s).timing = s.timing := rfl
@[simp] theorem advance_handles : (advance s).handles = s.handles := rfl
@[simp] theorem advance_reqOp : (advance s).reqOp = s.reqOp := rfl
@[simp] theorem advance_reqCls : (advance s).reqCls = s.reqCls := rfl
@[simp] theorem advance_reqByte : (advance s).reqByte = s.reqByte := rfl
@[simp] theorem advance_phase : (advance s).phase = s.phase := rfl
@[simp] theorem advance_upc : (advance s).upc = s.upc + 1 := rfl
@[simp] theorem advance_uprog : (advance s).uprog = s.uprog := rfl
@[simp] theorem advance_dreq : (advance s).dreq = s.dreq := rfl
@[simp] theorem advance_ready : (advance s).ready = s.ready := rfl
@[simp] theorem advance_last : (advance s).last = s.last := rfl
@[simp] theorem advance_pins : (advance s).pins = s.pins := rfl
@[simp] theorem advance_farSync : (advance s).farSync = s.farSync := rfl
@[simp] theorem advance_now : (advance s).now = s.now := rfl
@[simp] theorem advance_delayFrom : (advance s).delayFrom = s.delayFrom := rfl
@[simp] theorem advance_trace : (advance s).trace = s.trace := rfl
@[simp] theorem advance_earlierTraces : (advance s).earlierTraces = s.earlierTraces := rfl
@[simp] theorem advance_held : (advance s).held = s.held := rfl
@[simp] theorem advance_replies : (advance s).replies = s.replies := rfl
@[simp] theorem advance_host : (advance s).host = s.host := rfl
@[simp] theorem advance_tick : (advance s).tick = s.tick := rfl

/-! ## setReady (R95) -/

@[simp] theorem setReady_cfg : (setReady s).cfg = s.cfg := rfl
@[simp] theorem setReady_timing : (setReady s).timing = s.timing := rfl
@[simp] theorem setReady_handles : (setReady s).handles = s.handles := rfl
@[simp] theorem setReady_reqOp : (setReady s).reqOp = s.reqOp := rfl
@[simp] theorem setReady_reqCls : (setReady s).reqCls = s.reqCls := rfl
@[simp] theorem setReady_reqByte : (setReady s).reqByte = s.reqByte := rfl
@[simp] theorem setReady_phase : (setReady s).phase = s.phase := rfl
@[simp] theorem setReady_upc : (setReady s).upc = s.upc := rfl
@[simp] theorem setReady_uprog : (setReady s).uprog = s.uprog := rfl
@[simp] theorem setReady_dreq : (setReady s).dreq = s.dreq := rfl
@[simp] theorem setReady_ready : (setReady s).ready = true := rfl
@[simp] theorem setReady_last : (setReady s).last = s.last := rfl
@[simp] theorem setReady_pins : (setReady s).pins = s.pins := rfl
@[simp] theorem setReady_farSync : (setReady s).farSync = s.farSync := rfl
@[simp] theorem setReady_now : (setReady s).now = s.now := rfl
@[simp] theorem setReady_delayFrom : (setReady s).delayFrom = s.delayFrom := rfl
@[simp] theorem setReady_trace : (setReady s).trace = s.trace := rfl
@[simp] theorem setReady_earlierTraces : (setReady s).earlierTraces = s.earlierTraces := rfl
@[simp] theorem setReady_held : (setReady s).held = s.held := rfl
@[simp] theorem setReady_replies : (setReady s).replies = s.replies := rfl
@[simp] theorem setReady_host : (setReady s).host = s.host := rfl
@[simp] theorem setReady_tick : (setReady s).tick = s.tick := rfl

/-! ## clearReady (R96) -/

@[simp] theorem clearReady_cfg : (clearReady s).cfg = s.cfg := rfl
@[simp] theorem clearReady_timing : (clearReady s).timing = s.timing := rfl
@[simp] theorem clearReady_handles : (clearReady s).handles = s.handles := rfl
@[simp] theorem clearReady_reqOp : (clearReady s).reqOp = s.reqOp := rfl
@[simp] theorem clearReady_reqCls : (clearReady s).reqCls = s.reqCls := rfl
@[simp] theorem clearReady_reqByte : (clearReady s).reqByte = s.reqByte := rfl
@[simp] theorem clearReady_phase : (clearReady s).phase = s.phase := rfl
@[simp] theorem clearReady_upc : (clearReady s).upc = s.upc := rfl
@[simp] theorem clearReady_uprog : (clearReady s).uprog = s.uprog := rfl
@[simp] theorem clearReady_dreq : (clearReady s).dreq = s.dreq := rfl
@[simp] theorem clearReady_ready : (clearReady s).ready = false := rfl
@[simp] theorem clearReady_last : (clearReady s).last = s.last := rfl
@[simp] theorem clearReady_pins : (clearReady s).pins = s.pins := rfl
@[simp] theorem clearReady_farSync : (clearReady s).farSync = s.farSync := rfl
@[simp] theorem clearReady_now : (clearReady s).now = s.now := rfl
@[simp] theorem clearReady_delayFrom : (clearReady s).delayFrom = s.delayFrom := rfl
@[simp] theorem clearReady_trace : (clearReady s).trace = s.trace := rfl
@[simp] theorem clearReady_earlierTraces : (clearReady s).earlierTraces = s.earlierTraces := rfl
@[simp] theorem clearReady_held : (clearReady s).held = s.held := rfl
@[simp] theorem clearReady_replies : (clearReady s).replies = s.replies := rfl
@[simp] theorem clearReady_host : (clearReady s).host = s.host := rfl
@[simp] theorem clearReady_tick : (clearReady s).tick = s.tick := rfl

/-! ## hold (R121) -/

@[simp] theorem hold_cfg (w : ReqWord) : (hold w s).cfg = s.cfg := rfl
@[simp] theorem hold_timing (w : ReqWord) : (hold w s).timing = s.timing := rfl
@[simp] theorem hold_handles (w : ReqWord) : (hold w s).handles = s.handles := rfl
@[simp] theorem hold_reqOp (w : ReqWord) : (hold w s).reqOp = s.reqOp := rfl
@[simp] theorem hold_reqCls (w : ReqWord) : (hold w s).reqCls = s.reqCls := rfl
@[simp] theorem hold_reqByte (w : ReqWord) : (hold w s).reqByte = s.reqByte := rfl
@[simp] theorem hold_phase (w : ReqWord) : (hold w s).phase = s.phase := rfl
@[simp] theorem hold_upc (w : ReqWord) : (hold w s).upc = s.upc := rfl
@[simp] theorem hold_uprog (w : ReqWord) : (hold w s).uprog = s.uprog := rfl
@[simp] theorem hold_dreq (w : ReqWord) : (hold w s).dreq = s.dreq := rfl
@[simp] theorem hold_ready (w : ReqWord) : (hold w s).ready = s.ready := rfl
@[simp] theorem hold_last (w : ReqWord) : (hold w s).last = s.last := rfl
@[simp] theorem hold_pins (w : ReqWord) : (hold w s).pins = s.pins := rfl
@[simp] theorem hold_farSync (w : ReqWord) : (hold w s).farSync = s.farSync := rfl
@[simp] theorem hold_now (w : ReqWord) : (hold w s).now = s.now := rfl
@[simp] theorem hold_delayFrom (w : ReqWord) : (hold w s).delayFrom = s.delayFrom := rfl
@[simp] theorem hold_trace (w : ReqWord) : (hold w s).trace = s.trace := rfl
@[simp] theorem hold_earlierTraces (w : ReqWord) : (hold w s).earlierTraces = s.earlierTraces := rfl
@[simp] theorem hold_held (w : ReqWord) : (hold w s).held = s.held ++ [w] := rfl
@[simp] theorem hold_replies (w : ReqWord) : (hold w s).replies = s.replies := rfl
@[simp] theorem hold_host (w : ReqWord) : (hold w s).host = s.host := rfl
@[simp] theorem hold_tick (w : ReqWord) : (hold w s).tick = s.tick := rfl

/-! ## startDelay (R93) -/

@[simp] theorem startDelay_cfg (t : Nat) : (startDelay t s).cfg = s.cfg := rfl
@[simp] theorem startDelay_timing (t : Nat) : (startDelay t s).timing = s.timing := rfl
@[simp] theorem startDelay_handles (t : Nat) : (startDelay t s).handles = s.handles := rfl
@[simp] theorem startDelay_reqOp (t : Nat) : (startDelay t s).reqOp = s.reqOp := rfl
@[simp] theorem startDelay_reqCls (t : Nat) : (startDelay t s).reqCls = s.reqCls := rfl
@[simp] theorem startDelay_reqByte (t : Nat) : (startDelay t s).reqByte = s.reqByte := rfl
@[simp] theorem startDelay_phase (t : Nat) : (startDelay t s).phase = .delay := rfl
@[simp] theorem startDelay_upc (t : Nat) : (startDelay t s).upc = s.upc := rfl
@[simp] theorem startDelay_uprog (t : Nat) : (startDelay t s).uprog = s.uprog := rfl
@[simp] theorem startDelay_dreq (t : Nat) : (startDelay t s).dreq = t := rfl
@[simp] theorem startDelay_ready (t : Nat) : (startDelay t s).ready = s.ready := rfl
@[simp] theorem startDelay_last (t : Nat) : (startDelay t s).last = s.last := rfl
@[simp] theorem startDelay_pins (t : Nat) : (startDelay t s).pins = s.pins := rfl
@[simp] theorem startDelay_farSync (t : Nat) : (startDelay t s).farSync = s.farSync := rfl
@[simp] theorem startDelay_now (t : Nat) : (startDelay t s).now = s.now := rfl
@[simp] theorem startDelay_delayFrom (t : Nat) : (startDelay t s).delayFrom = s.now := rfl
@[simp] theorem startDelay_trace (t : Nat) : (startDelay t s).trace = s.trace ++ [⟨s.now, .wait t⟩] := rfl
@[simp] theorem startDelay_earlierTraces (t : Nat) : (startDelay t s).earlierTraces = s.earlierTraces := rfl
@[simp] theorem startDelay_held (t : Nat) : (startDelay t s).held = s.held := rfl
@[simp] theorem startDelay_replies (t : Nat) : (startDelay t s).replies = s.replies := rfl
@[simp] theorem startDelay_host (t : Nat) : (startDelay t s).host = s.host := rfl
@[simp] theorem startDelay_tick (t : Nat) : (startDelay t s).tick = s.tick := rfl

/-! ## returnDelay (R93) -/

@[simp] theorem returnDelay_cfg : (returnDelay s).cfg = s.cfg := rfl
@[simp] theorem returnDelay_timing : (returnDelay s).timing = s.timing := rfl
@[simp] theorem returnDelay_handles : (returnDelay s).handles = s.handles := rfl
@[simp] theorem returnDelay_reqOp : (returnDelay s).reqOp = s.reqOp := rfl
@[simp] theorem returnDelay_reqCls : (returnDelay s).reqCls = s.reqCls := rfl
@[simp] theorem returnDelay_reqByte : (returnDelay s).reqByte = s.reqByte := rfl
@[simp] theorem returnDelay_phase : (returnDelay s).phase = .exec := rfl
@[simp] theorem returnDelay_upc : (returnDelay s).upc = s.upc + 1 := rfl
@[simp] theorem returnDelay_uprog : (returnDelay s).uprog = s.uprog := rfl
@[simp] theorem returnDelay_dreq : (returnDelay s).dreq = s.dreq := rfl
@[simp] theorem returnDelay_ready : (returnDelay s).ready = s.ready := rfl
@[simp] theorem returnDelay_last : (returnDelay s).last = s.last := rfl
@[simp] theorem returnDelay_pins : (returnDelay s).pins = s.pins := rfl
@[simp] theorem returnDelay_farSync : (returnDelay s).farSync = s.farSync := rfl
@[simp] theorem returnDelay_now : (returnDelay s).now = max s.now (s.delayFrom + s.dreq) := rfl
@[simp] theorem returnDelay_delayFrom : (returnDelay s).delayFrom = s.delayFrom := rfl
@[simp] theorem returnDelay_trace : (returnDelay s).trace = s.trace := rfl
@[simp] theorem returnDelay_earlierTraces : (returnDelay s).earlierTraces = s.earlierTraces := rfl
@[simp] theorem returnDelay_held : (returnDelay s).held = s.held := rfl
@[simp] theorem returnDelay_replies : (returnDelay s).replies = s.replies := rfl
@[simp] theorem returnDelay_host : (returnDelay s).host = s.host := rfl
@[simp] theorem returnDelay_tick : (returnDelay s).tick = s.tick := rfl

/-! ## finish (R94) -/

@[simp] theorem finish_cfg : (finish s).cfg = s.cfg := rfl
@[simp] theorem finish_timing : (finish s).timing = s.timing := rfl
@[simp] theorem finish_handles : (finish s).handles = s.handles := rfl
@[simp] theorem finish_reqOp : (finish s).reqOp = s.reqOp := rfl
@[simp] theorem finish_reqCls : (finish s).reqCls = s.reqCls := rfl
@[simp] theorem finish_reqByte : (finish s).reqByte = s.reqByte := rfl
@[simp] theorem finish_phase : (finish s).phase = .idle := rfl
@[simp] theorem finish_upc : (finish s).upc = s.upc := rfl
@[simp] theorem finish_uprog : (finish s).uprog = s.uprog := rfl
@[simp] theorem finish_dreq : (finish s).dreq = s.dreq := rfl
@[simp] theorem finish_ready : (finish s).ready = s.ready := rfl
@[simp] theorem finish_last : (finish s).last = .ok := rfl
@[simp] theorem finish_pins : (finish s).pins = s.pins := rfl
@[simp] theorem finish_farSync : (finish s).farSync = farSyncAtEnd s.reqOp s.farSync := rfl
@[simp] theorem finish_now : (finish s).now = s.now := rfl
@[simp] theorem finish_delayFrom : (finish s).delayFrom = s.delayFrom := rfl
@[simp] theorem finish_trace : (finish s).trace = s.trace ++ [⟨s.now, .done⟩] := rfl
@[simp] theorem finish_earlierTraces : (finish s).earlierTraces = s.earlierTraces := rfl
@[simp] theorem finish_held : (finish s).held = s.held := rfl
@[simp] theorem finish_replies : (finish s).replies = s.replies ++ [.status .ok] := rfl
@[simp] theorem finish_host : (finish s).host = s.host := rfl
@[simp] theorem finish_tick : (finish s).tick = s.tick := rfl

/-! ## reject (R120) -/

@[simp] theorem reject_cfg (w : ReqWord) (c : Status) : (reject w c s).cfg = s.cfg := rfl
@[simp] theorem reject_timing (w : ReqWord) (c : Status) : (reject w c s).timing = s.timing := rfl
@[simp] theorem reject_handles (w : ReqWord) (c : Status) : (reject w c s).handles = s.handles := rfl
@[simp] theorem reject_reqOp (w : ReqWord) (c : Status) : (reject w c s).reqOp = s.reqOp := rfl
@[simp] theorem reject_reqCls (w : ReqWord) (c : Status) : (reject w c s).reqCls = s.reqCls := rfl
@[simp] theorem reject_reqByte (w : ReqWord) (c : Status) : (reject w c s).reqByte = s.reqByte := rfl
@[simp] theorem reject_phase (w : ReqWord) (c : Status) : (reject w c s).phase = s.phase := rfl
@[simp] theorem reject_upc (w : ReqWord) (c : Status) : (reject w c s).upc = s.upc := rfl
@[simp] theorem reject_uprog (w : ReqWord) (c : Status) : (reject w c s).uprog = s.uprog := rfl
@[simp] theorem reject_dreq (w : ReqWord) (c : Status) : (reject w c s).dreq = s.dreq := rfl
@[simp] theorem reject_ready (w : ReqWord) (c : Status) : (reject w c s).ready = s.ready := rfl
@[simp] theorem reject_last (w : ReqWord) (c : Status) : (reject w c s).last = c := rfl
@[simp] theorem reject_pins (w : ReqWord) (c : Status) : (reject w c s).pins = s.pins := rfl
@[simp] theorem reject_farSync (w : ReqWord) (c : Status) : (reject w c s).farSync = s.farSync := rfl
@[simp] theorem reject_now (w : ReqWord) (c : Status) : (reject w c s).now = s.now := rfl
@[simp] theorem reject_delayFrom (w : ReqWord) (c : Status) : (reject w c s).delayFrom = s.delayFrom := rfl
@[simp] theorem reject_trace (w : ReqWord) (c : Status) : (reject w c s).trace = s.trace ++ [⟨s.now, .reject w c⟩] := rfl
@[simp] theorem reject_earlierTraces (w : ReqWord) (c : Status) : (reject w c s).earlierTraces = s.earlierTraces := rfl
@[simp] theorem reject_held (w : ReqWord) (c : Status) : (reject w c s).held = s.held := rfl
@[simp] theorem reject_replies (w : ReqWord) (c : Status) : (reject w c s).replies = s.replies ++ [.status c] := rfl
@[simp] theorem reject_host (w : ReqWord) (c : Status) : (reject w c s).host = s.host := rfl
@[simp] theorem reject_tick (w : ReqWord) (c : Status) : (reject w c s).tick = s.tick := rfl

/-! ## accept (R119) -/

@[simp] theorem accept_cfg (op : ReqOp) (cls : DelayClass) (b : Byte) (prog : List UopWord) : (accept op cls b prog s).cfg = s.cfg := rfl
@[simp] theorem accept_timing (op : ReqOp) (cls : DelayClass) (b : Byte) (prog : List UopWord) : (accept op cls b prog s).timing = s.timing := rfl
@[simp] theorem accept_handles (op : ReqOp) (cls : DelayClass) (b : Byte) (prog : List UopWord) : (accept op cls b prog s).handles = s.handles := rfl
@[simp] theorem accept_reqOp (op : ReqOp) (cls : DelayClass) (b : Byte) (prog : List UopWord) : (accept op cls b prog s).reqOp = op := rfl
@[simp] theorem accept_reqCls (op : ReqOp) (cls : DelayClass) (b : Byte) (prog : List UopWord) : (accept op cls b prog s).reqCls = cls := rfl
@[simp] theorem accept_reqByte (op : ReqOp) (cls : DelayClass) (b : Byte) (prog : List UopWord) : (accept op cls b prog s).reqByte = b := rfl
@[simp] theorem accept_phase (op : ReqOp) (cls : DelayClass) (b : Byte) (prog : List UopWord) : (accept op cls b prog s).phase = .exec := rfl
@[simp] theorem accept_upc (op : ReqOp) (cls : DelayClass) (b : Byte) (prog : List UopWord) : (accept op cls b prog s).upc = 0 := rfl
@[simp] theorem accept_uprog (op : ReqOp) (cls : DelayClass) (b : Byte) (prog : List UopWord) : (accept op cls b prog s).uprog = prog := rfl
@[simp] theorem accept_dreq (op : ReqOp) (cls : DelayClass) (b : Byte) (prog : List UopWord) : (accept op cls b prog s).dreq = s.dreq := rfl
@[simp] theorem accept_ready (op : ReqOp) (cls : DelayClass) (b : Byte) (prog : List UopWord) : (accept op cls b prog s).ready = s.ready := rfl
@[simp] theorem accept_last (op : ReqOp) (cls : DelayClass) (b : Byte) (prog : List UopWord) : (accept op cls b prog s).last = s.last := rfl
@[simp] theorem accept_pins (op : ReqOp) (cls : DelayClass) (b : Byte) (prog : List UopWord) : (accept op cls b prog s).pins = s.pins := rfl
@[simp] theorem accept_farSync (op : ReqOp) (cls : DelayClass) (b : Byte) (prog : List UopWord) : (accept op cls b prog s).farSync = s.farSync := rfl
@[simp] theorem accept_now (op : ReqOp) (cls : DelayClass) (b : Byte) (prog : List UopWord) : (accept op cls b prog s).now = s.now := rfl
@[simp] theorem accept_delayFrom (op : ReqOp) (cls : DelayClass) (b : Byte) (prog : List UopWord) : (accept op cls b prog s).delayFrom = s.delayFrom := rfl
@[simp] theorem accept_trace (op : ReqOp) (cls : DelayClass) (b : Byte) (prog : List UopWord) : (accept op cls b prog s).trace = s.trace ++ [⟨s.now, .accept (reqWord (reqOpCode op) cls.bit b)⟩] := rfl
@[simp] theorem accept_earlierTraces (op : ReqOp) (cls : DelayClass) (b : Byte) (prog : List UopWord) : (accept op cls b prog s).earlierTraces = s.earlierTraces := rfl
@[simp] theorem accept_held (op : ReqOp) (cls : DelayClass) (b : Byte) (prog : List UopWord) : (accept op cls b prog s).held = s.held := rfl
@[simp] theorem accept_replies (op : ReqOp) (cls : DelayClass) (b : Byte) (prog : List UopWord) : (accept op cls b prog s).replies = s.replies := rfl
@[simp] theorem accept_host (op : ReqOp) (cls : DelayClass) (b : Byte) (prog : List UopWord) : (accept op cls b prog s).host = s.host := rfl
@[simp] theorem accept_tick (op : ReqOp) (cls : DelayClass) (b : Byte) (prog : List UopWord) : (accept op cls b prog s).tick = s.tick := rfl

end Sys2Proof.Machine
end

