-- ==== Sys2Proof/Laws/Ops.lean ====
section
/-!
SUPPORT. What each shared operation can do, said once: latches, `drivePin`, `submitRequest`, construction, and the meaning
of every SETPIN row as `drivePin`.
-/

namespace Sys2Proof.Machine

@[simp] theorem latch_setLatch_same (q : Pins) (p : Pin) (v : Bool) : latch (setLatch q p v) p = some v := by
  cases p <;> rfl

theorem latch_setLatch_other (q : Pins) {p r : Pin} (v : Bool) (h : r ≠ p) : latch (setLatch q p v) r = latch q r := by
  cases p <;> cases r <;> first | rfl | exact absurd rfl h

/-- Two records of latches are equal when they agree on every pin. -/
theorem pins_ext {a b : Pins} (h : ∀ p, latch a p = latch b p) : a = b := by
  cases a
  cases b
  have h4 := h .d4
  have h5 := h .d5
  have h6 := h .d6
  have h7 := h .d7
  have hs := h .rs
  have he := h .e
  have hw := h .rw
  simp only [latch] at h4 h5 h6 h7 hs he hw
  simp [h4, h5, h6, h7, hs, he, hw]

/-- The state `drivePin` leaves when it goes on (R92). -/
def driven (p : Pin) (v : Bool) (s : State) : State :=
  advance (record (.set p v) { s with pins := setLatch s.pins p v })

theorem drivePin_next (p : Pin) (v : Bool) (s : State) (h : p = .rw → s.cfg.rwp = true) :
    drivePin p v s = .next (driven p v s) := by
  unfold drivePin driven
  split
  · rename_i hc
    simp [h hc.1] at hc
  · rfl

theorem drivePin_fault (v : Bool) (s : State) (h : s.cfg.rwp = false) : drivePin .rw v s = .fault .microcodeFault := by
  simp [drivePin, h]

/-- `drivePin` goes on in exactly one way. -/
theorem drivePin_cases {p : Pin} {v : Bool} {s t : State} (h : drivePin p v s = .next t) :
    (p = .rw → s.cfg.rwp = true) ∧ t = driven p v s := by
  unfold drivePin at h
  split at h
  · cases h
  · rename_i hc
    refine ⟨fun hp => ?_, by simpa [driven] using h.symm⟩
    by_contra hr
    exact hc ⟨hp, by simpa using hr⟩

/-- The meaning of every SETPIN row is `drivePin` of its pin (R92). -/
theorem exec_setpin (p : Pin) (v : Bool) (s : State) : exec (setpin p v) s = drivePin p v s := by
  cases p <;> rfl

/-- The instruction of a latched request. -/
def requestInstr (op : ReqOp) (cls : DelayClass) (b : Byte) : Instr :=
  match op with
  | .cmd => .cmd cls b
  | .data => .data b
  | .init => .init

/-- A class and byte a request of an operation can have (R67). -/
def fieldsFit (op : ReqOp) (cls : DelayClass) (b : Byte) : Prop :=
  match op with
  | .cmd => True
  | .data => cls = .short
  | .init => cls = .short ∧ b = 0

/-- Every request is `submitRequest` with the expansion of its operation (R119). -/
theorem exec_request {op : ReqOp} {cls : DelayClass} {b : Byte} (h : fieldsFit op cls b) (s : State) :
    exec (requestInstr op cls b) s =
      submitRequest op cls b (decide (op ≠ .init)) (expand op cls b s.cfg) s := by
  cases op with
  | cmd => rfl
  | data => cases h; rfl
  | init => obtain ⟨rfl, rfl⟩ := h; rfl

/-- The three things `submitRequest` can do (R119, R120, R121). -/
theorem submitRequest_cases {op : ReqOp} {cls : DelayClass} {b : Byte} {need : Bool} {prog : List UopWord} {s t : State}
    (h : submitRequest op cls b need prog s = .next t) :
    (s.phase ≠ .idle ∧ t = hold (reqWord (reqOpCode op) cls.bit b) s) ∨
    (s.phase = .idle ∧ need = true ∧ s.ready = false ∧
      t = reject (reqWord (reqOpCode op) cls.bit b) .notInitialized s) ∨
    (s.phase = .idle ∧ (need = true → s.ready = true) ∧ t = accept op cls b prog s) := by
  unfold submitRequest at h
  split at h
  · exact .inl ⟨‹_›, by simpa using h.symm⟩
  · rename_i hp
    have hp : s.phase = .idle := by simpa using hp
    split at h
    · rename_i hc
      exact .inr (.inl ⟨hp, hc.1, hc.2, by simpa using h.symm⟩)
    · rename_i hc
      refine .inr (.inr ⟨hp, fun hn => ?_, by simpa using h.symm⟩)
      by_contra hr
      exact hc ⟨hn, by simpa using hr⟩

/-- An idle block accepts a request that may run (R119). -/
theorem submitRequest_accepts {op : ReqOp} {cls : DelayClass} {b : Byte} {need : Bool} {prog : List UopWord} {s : State}
    (hp : s.phase = .idle) (hr : need = true → s.ready = true) :
    submitRequest op cls b need prog s = .next (accept op cls b prog s) := by
  have hc : ¬ (need = true ∧ s.ready = false) := fun h => by simp [hr h.1] at h
  simp [submitRequest, hp, hc]

/-- An idle block rejects a request that needs `READY` while it is 0 (R120). -/
theorem submitRequest_rejects {op : ReqOp} {cls : DelayClass} {b : Byte} {prog : List UopWord} {s : State}
    (hp : s.phase = .idle) (hr : s.ready = false) :
    submitRequest op cls b true prog s = .next (reject (reqWord (reqOpCode op) cls.bit b) .notInitialized s) := by
  simp [submitRequest, hp, hr]

/-- A busy block holds a request (R121). -/
theorem submitRequest_holds {op : ReqOp} {cls : DelayClass} {b : Byte} {need : Bool} {prog : List UopWord} {s : State}
    (hp : s.phase ≠ .idle) :
    submitRequest op cls b need prog s = .next (hold (reqWord (reqOpCode op) cls.bit b) s) := by
  simp [submitRequest, hp]

/-- `submitRequest` always goes on. -/
theorem submitRequest_completes (op : ReqOp) (cls : DelayClass) (b : Byte) (need : Bool) (prog : List UopWord)
    (s : State) : ∃ t, submitRequest op cls b need prog s = .next t := by
  unfold submitRequest
  split
  · exact ⟨_, rfl⟩
  · split <;> exact ⟨_, rfl⟩

/-- A refused construction (R139) changes nothing but what the environment is told. -/
theorem resetBlock_illegal {a : ConstructArgs} (h : a.legal = false) (s : State) :
    resetBlock a s = answer .constructionRefused s := by
  simp [resetBlock, construct, h]

/-- An accepted construction (R139, R142) leaves the state of R37, with the environment's own record going on. -/
theorem resetBlock_legal {a : ConstructArgs} (h : a.legal = true) (s : State) :
    resetBlock a s =
      { State.reset with
        cfg := a.cfg, timing := a.timing, handles := a.handles, now := s.now, tick := s.tick, host := s.host,
        replies := s.replies, earlierTraces := s.trace :: s.earlierTraces } := by
  simp [resetBlock, construct, h]

end Sys2Proof.Machine
end

