-- ==== Sys2Proof/Laws/PerInstr.lean ====
section
/-!
SUPPORT. Statements made per instruction. Family TableRow: the word of an instruction is of its opcode-table row's format
and matches the row's mask and pattern, whatever the operands (R73, spec/opcode_table.json).
-/

namespace Sys2Proof.Laws.TableRow

/-- The encoded word matches the instruction's row, and is a request word exactly for a request. -/
def Statement (i : Instr) : Prop := (tableRow i).holds (encode i) = true ∧ (tableRow i).request = i.isRequest

theorem masked {p : ReqWord} (w m : ReqWord) (h : w &&& m = p) : w.toNat &&& m.toNat = p.toNat := by
  rw [← h, BitVec.toNat_and]

theorem cmd (cls : DelayClass) (byte : Byte) : Statement (.cmd cls byte) := by
  refine ⟨?_, rfl⟩
  have h : cmdWord cls byte &&& 0xE00#12 = 0#12 := by
    ext i hi
    simp only [cmdWord, reqWord]
    interval_cases i <;> cases cls <;> simp [DelayClass.bit]
  have := masked _ _ h
  simpa [tableRow, encode, TableRow.holds] using this

theorem data (byte : Byte) : Statement (.data byte) := by
  refine ⟨?_, rfl⟩
  have h : dataWord byte &&& 0xF00#12 = 0x400#12 := by
    ext i hi
    simp only [dataWord, reqWord]
    interval_cases i <;> simp
  have := masked _ _ h
  simpa [tableRow, encode, TableRow.holds] using this

theorem init : Statement .init := by unfold Statement; decide

theorem setpinD4 (lvl : Bool) : Statement (.setpinD4 lvl) := by unfold Statement; cases lvl <;> decide

theorem setpinD5 (lvl : Bool) : Statement (.setpinD5 lvl) := by unfold Statement; cases lvl <;> decide

theorem setpinD6 (lvl : Bool) : Statement (.setpinD6 lvl) := by unfold Statement; cases lvl <;> decide

theorem setpinD7 (lvl : Bool) : Statement (.setpinD7 lvl) := by unfold Statement; cases lvl <;> decide

theorem setpinRS (lvl : Bool) : Statement (.setpinRS lvl) := by unfold Statement; cases lvl <;> decide

theorem setpinE (lvl : Bool) : Statement (.setpinE lvl) := by unfold Statement; cases lvl <;> decide

theorem setpinRW (lvl : Bool) : Statement (.setpinRW lvl) := by unfold Statement; cases lvl <;> decide

theorem wait (name : TimeName) : Statement (.wait name) := by unfold Statement; cases name <;> decide

theorem endOp : Statement .endOp := by unfold Statement; decide

theorem setrdy : Statement .setrdy := by unfold Statement; decide

theorem clrrdy : Statement .clrrdy := by unfold Statement; decide

end Sys2Proof.Laws.TableRow
end

