-- ==== Sys2Proof/Laws/Step.lean ====
section
/-!
SUPPORT. What one step can do, said once: `Moves` lists the block's turns, `step_cases` the moves of a step.
-/

namespace Sys2Proof.Machine

/-- The turns of the block that go on, one constructor per way (R90, R93, R119 to R122). -/
inductive Moves (s : State) : State → Prop where
  | idles (hp : s.phase = .idle) (hh : s.held = []) : Moves s s
  | illegal (w : ReqWord) (rest : List ReqWord) (why : DecodeError) (hp : s.phase = .idle) (hh : s.held = w :: rest)
      (hd : decodeReq w = .bad why) : Moves s (reject w .illegalRequest { s with held := rest })
  | notReady (op : ReqOp) (cls : DelayClass) (b : Byte) (rest : List ReqWord) (hp : s.phase = .idle)
      (hh : s.held = reqWord (reqOpCode op) cls.bit b :: rest) (hf : fieldsFit op cls b) (ho : op ≠ .init)
      (hr : s.ready = false) :
      Moves s (reject (reqWord (reqOpCode op) cls.bit b) .notInitialized { s with held := rest })
  | accepts (op : ReqOp) (cls : DelayClass) (b : Byte) (rest : List ReqWord) (hp : s.phase = .idle)
      (hh : s.held = reqWord (reqOpCode op) cls.bit b :: rest) (hf : fieldsFit op cls b)
      (hr : op ≠ .init → s.ready = true) :
      Moves s (accept op cls b (expand op cls b s.cfg) { s with held := rest })
  | drives (p : Pin) (v : Bool) (hp : s.phase = .exec) (hu : fetch s = some (setpinWord p v))
      (hr : p = .rw → s.cfg.rwp = true) : Moves s (driven p v s)
  | waits (n : TimeName) (hp : s.phase = .exec) (hu : fetch s = some (waitWord n)) :
      Moves s (startDelay (timingOf s.timing n) s)
  | ends (hp : s.phase = .exec) (hu : fetch s = some endWord) : Moves s (finish s)
  | setsReady (hp : s.phase = .exec) (hu : fetch s = some setrdyWord) : Moves s (advance (setReady s))
  | clearsReady (hp : s.phase = .exec) (hu : fetch s = some clrrdyWord) : Moves s (advance (clearReady s))
  | returns (hp : s.phase = .delay) : Moves s (returnDelay s)

theorem portTurn_request {op : ReqOp} {cls : DelayClass} {b : Byte} {rest : List ReqWord} {s t : State}
    (hp : s.phase = .idle) (hh : s.held = reqWord (reqOpCode op) cls.bit b :: rest) (hf : fieldsFit op cls b)
    (h : exec (requestInstr op cls b) { s with held := rest } = .next t) : Moves s t := by
  rw [exec_request hf] at h
  rcases submitRequest_cases h with ⟨hb, _⟩ | ⟨_, hn, hr, rfl⟩ | ⟨_, hr, rfl⟩
  · exact absurd hp hb
  · exact .notReady op cls b rest hp hh hf (by simpa using hn) hr
  · exact .accepts op cls b rest hp hh hf (fun ho => hr (by simpa using ho))

theorem portTurn_moves {s t : State} (hp : s.phase = .idle) (h : portTurn s = .next t) : Moves s t := by
  unfold portTurn at h
  split at h
  · cases h
    exact .idles hp ‹_›
  · rename_i w rest hh
    split at h
    · rename_i why hd
      cases h
      exact .illegal w rest why hp hh hd
    · rename_i i hd
      rcases decodeReq_instr hd with ⟨c, b, rfl, rfl⟩ | ⟨b, rfl, rfl⟩ | ⟨rfl, rfl⟩
      · exact portTurn_request (op := .cmd) hp hh trivial h
      · exact portTurn_request (op := .data) (cls := .short) hp hh rfl h
      · exact portTurn_request (op := .init) (cls := .short) (b := 0) hp hh ⟨rfl, rfl⟩ h

theorem fetchTurn_moves {s t : State} (hp : s.phase = .exec) (h : fetchTurn s = .next t) : Moves s t := by
  unfold fetchTurn at h
  split at h
  · cases h
  · rename_i u hu
    split at h
    · cases h
    · rename_i i hd
      cases decodeUop_instr hd with
      | setpin p v =>
        rw [exec_setpin] at h
        obtain ⟨hr, rfl⟩ := drivePin_cases h
        exact .drives p v hp hu hr
      | wait n => cases h; exact .waits n hp hu
      | endOp => cases h; exact .ends hp hu
      | setrdy => cases h; exact .setsReady hp hu
      | clrrdy => cases h; exact .clearsReady hp hu

/-- The block's turn goes on only in the ways `Moves` lists. -/
theorem blockTurn_moves {s t : State} (h : blockTurn s = .next t) : Moves s t := by
  unfold blockTurn at h
  split at h
  · exact portTurn_moves ‹_› h
  · exact fetchTurn_moves ‹_› h
  · cases h
    exact .returns ‹_›

/-- What a step can do: a turn of the block, or one of the environment's moves (R137). -/
theorem step_cases {s t : State} (h : step s = .next t) :
    (∃ rest, Moves { passTime s with host := rest } t) ∨
    (∃ rest, t = { passTime s with host := rest }) ∨
    (∃ w rest, t = hold w { passTime s with host := rest }) ∨
    (∃ rest, t = answer (.stat (stat s)) { passTime s with host := rest }) ∨
    (∃ a rest, s.host = .reset a :: rest ∧ t = resetBlock a { passTime s with host := rest }) := by
  unfold step turn at h
  split at h
  · exact .inl ⟨_, blockTurn_moves h⟩
  · exact .inl ⟨_, blockTurn_moves h⟩
  · split at h
    · cases h
      exact .inr (.inl ⟨_, rfl⟩)
    · exact .inl ⟨_, blockTurn_moves h⟩
  · cases h
    exact .inr (.inl ⟨_, rfl⟩)
  · cases h
    exact .inr (.inr (.inl ⟨_, _, rfl⟩))
  · cases h
    exact .inr (.inr (.inr (.inl ⟨_, rfl⟩)))
  · rename_i a rest hh
    cases h
    exact .inr (.inr (.inr (.inr ⟨a, rest, hh, rfl⟩)))

end Sys2Proof.Machine
end

