-- ==== Sys2Proof/Laws/Program.lean ====
section
/-!
SUPPORT. The shape of every micro-program: SETPINs and WAITs, between INIT's CLRRDY and SETRDY, and one END, last
(R98, R102, R103, R104, R109).
-/

namespace Sys2Proof.Machine

/-- A SETPIN the block's `CFG` allows, or a WAIT: the micro-ops that touch the bus or the clock (R92, R93). -/
def BusUop (c : Cfg) (u : UopWord) : Prop :=
  (∃ p v, u = setpinWord p v ∧ (p = .rw → c.rwp = true)) ∨ ∃ n, u = waitWord n

theorem setpin_busUop (c : Cfg) {p : Pin} (v : Bool) (h : p ≠ .rw) : BusUop c (setpinWord p v) :=
  .inl ⟨p, v, rfl, fun hp => absurd hp h⟩

theorem wait_busUop (c : Cfg) (n : TimeName) : BusUop c (waitWord n) := .inr ⟨n, rfl⟩

theorem setpinWord_ne_end (p : Pin) (v : Bool) : setpinWord p v ≠ endWord := by cases p <;> cases v <;> decide

theorem setpinWord_ne_setrdy (p : Pin) (v : Bool) : setpinWord p v ≠ setrdyWord := by cases p <;> cases v <;> decide

theorem setpinWord_ne_clrrdy (p : Pin) (v : Bool) : setpinWord p v ≠ clrrdyWord := by cases p <;> cases v <;> decide

theorem waitWord_ne_end (n : TimeName) : waitWord n ≠ endWord := by cases n <;> decide

theorem waitWord_ne_setrdy (n : TimeName) : waitWord n ≠ setrdyWord := by cases n <;> decide

theorem waitWord_ne_clrrdy (n : TimeName) : waitWord n ≠ clrrdyWord := by cases n <;> decide

theorem setpinWord_ne_wait (p : Pin) (v : Bool) (n : TimeName) : setpinWord p v ≠ waitWord n := by
  cases p <;> cases v <;> cases n <;> decide

theorem setpinWord_inj {p q : Pin} {v w : Bool} (h : setpinWord p v = setpinWord q w) : p = q ∧ v = w := by
  revert h
  cases p <;> cases q <;> cases v <;> cases w <;> decide

theorem waitWord_inj {m n : TimeName} (h : waitWord m = waitWord n) : m = n := by
  revert h
  cases m <;> cases n <;> decide

theorem busUop_ne_end {c : Cfg} {u : UopWord} (h : BusUop c u) : u ≠ endWord := by
  rcases h with ⟨p, v, rfl, -⟩ | ⟨n, rfl⟩
  · exact setpinWord_ne_end p v
  · exact waitWord_ne_end n

theorem busUop_ne_setrdy {c : Cfg} {u : UopWord} (h : BusUop c u) : u ≠ setrdyWord := by
  rcases h with ⟨p, v, rfl, -⟩ | ⟨n, rfl⟩
  · exact setpinWord_ne_setrdy p v
  · exact waitWord_ne_setrdy n

theorem busUop_ne_clrrdy {c : Cfg} {u : UopWord} (h : BusUop c u) : u ≠ clrrdyWord := by
  rcases h with ⟨p, v, rfl, -⟩ | ⟨n, rfl⟩
  · exact setpinWord_ne_clrrdy p v
  · exact waitWord_ne_clrrdy n

/-- The micro-ops of a bus cycle touch the bus or wait (R97). -/
theorem nibbleProg_busUop (c : Cfg) (n : Nibble) : ∀ u ∈ nibbleProg n, BusUop c u := by
  intro u hu
  simp only [nibbleProg, List.mem_cons, List.not_mem_nil, or_false] at hu
  rcases hu with rfl | rfl | rfl | rfl | rfl | rfl | rfl | rfl | rfl <;>
    first | exact wait_busUop c _ | exact setpin_busUop c _ (by decide)

theorem nibbleProg_length (n : Nibble) : (nibbleProg n).length = 9 := rfl

/-- The micro-ops of a byte touch the bus or wait (R98). -/
theorem byteProg_busUop (c : Cfg) (rs : Bool) (b : Byte) : ∀ u ∈ byteProg rs b, BusUop c u := by
  intro u hu
  simp only [byteProg, List.mem_cons, List.mem_append] at hu
  rcases hu with rfl | hu | hu
  · exact setpin_busUop c _ (by decide)
  · exact nibbleProg_busUop c _ u hu
  · exact nibbleProg_busUop c _ u hu

theorem byteProg_length (rs : Bool) (b : Byte) : (byteProg rs b).length = 19 := rfl

/-- The bus part of a transfer: the byte, then the settle wait (R102). -/
def transferBody (rs : Bool) (b : Byte) (n : TimeName) : List UopWord := byteProg rs b ++ [waitWord n]

theorem transferBody_busUop (c : Cfg) (rs : Bool) (b : Byte) (n : TimeName) :
    ∀ u ∈ transferBody rs b n, BusUop c u := by
  intro u hu
  simp only [transferBody, List.mem_append, List.mem_singleton] at hu
  rcases hu with hu | rfl
  · exact byteProg_busUop c rs b u hu
  · exact wait_busUop c n

theorem expandCmd_eq (cls : DelayClass) (b : Byte) :
    expandCmd cls b = transferBody false b (settleOf cls) ++ [endWord] := by
  simp [expandCmd, transferBody]

theorem expandData_eq (b : Byte) : expandData b = transferBody true b .short ++ [endWord] := by
  simp [expandData, transferBody]

/-- The bus part of INIT, between CLRRDY and SETRDY (R109). -/
def initBody (c : Cfg) : List UopWord :=
  [setpinWord .e false, setpinWord .rs false] ++ initRwProg c ++ [waitWord .powerOn] ++ nibbleProg 0x3
    ++ [waitWord .init1] ++ nibbleProg 0x3 ++ [waitWord .init2] ++ nibbleProg 0x3 ++ [waitWord .short]
    ++ nibbleProg 0x2 ++ [waitWord .short] ++ transferBody false (functionSetByte c) .short
    ++ transferBody false 0x08 .short ++ transferBody false 0x01 .long ++ transferBody false 0x06 .short

theorem expandInit_eq (c : Cfg) : expandInit c = clrrdyWord :: (initBody c ++ [setrdyWord, endWord]) := by
  unfold expandInit initBody transferBody
  simp only [List.append_assoc, List.cons_append, List.nil_append]

theorem initRwProg_busUop (c : Cfg) : ∀ u ∈ initRwProg c, BusUop c u := by
  intro u hu
  unfold initRwProg at hu
  split at hu
  · rename_i h
    rw [List.mem_singleton] at hu
    exact .inl ⟨.rw, false, hu, fun _ => h⟩
  · cases hu

theorem initBody_busUop (c : Cfg) : ∀ u ∈ initBody c, BusUop c u := by
  have hw : ∀ n, ∀ u ∈ [waitWord n], BusUop c u := fun n => by simpa using wait_busUop c n
  simp only [initBody, List.forall_mem_append]
  refine ⟨⟨⟨⟨⟨⟨⟨⟨⟨⟨⟨⟨⟨⟨?_, initRwProg_busUop c⟩, hw _⟩, nibbleProg_busUop c _⟩, hw _⟩, nibbleProg_busUop c _⟩, hw _⟩,
    nibbleProg_busUop c _⟩, hw _⟩, nibbleProg_busUop c _⟩, hw _⟩, transferBody_busUop c _ _ _⟩,
    transferBody_busUop c _ _ _⟩, transferBody_busUop c _ _ _⟩, transferBody_busUop c _ _ _⟩
  simp only [List.forall_mem_cons, List.not_mem_nil, false_implies, implies_true, and_true]
  exact ⟨setpin_busUop c false (by decide), setpin_busUop c false (by decide)⟩

theorem initBody_length (c : Cfg) : (initBody c).length = 123 + (initRwProg c).length := by
  simp only [initBody, List.length_append, List.length_cons, List.length_nil, nibbleProg_length, transferBody,
    byteProg_length]
  omega

theorem initRwProg_length_le (c : Cfg) : (initRwProg c).length ≤ 1 := by
  unfold initRwProg
  split <;> decide

/-- A word of a CMD's or DATA's micro-program: a bus micro-op before the last place, END at it. -/
theorem transfer_word {c : Cfg} {body : List UopWord} (hb : ∀ u ∈ body, BusUop c u) {k : Nat} {u : UopWord}
    (h : (body ++ [endWord])[k]? = some u) :
    (k < body.length ∧ body[k]? = some u ∧ BusUop c u) ∨ (k = body.length ∧ u = endWord) := by
  rw [List.getElem?_append] at h
  split at h
  · exact .inl ⟨‹_›, h, hb u (List.mem_of_getElem? h)⟩
  · rename_i hk
    have : k - body.length = 0 := by
      by_contra hne
      rw [List.getElem?_eq_none (by simp; omega)] at h
      cases h
    rw [this] at h
    exact .inr ⟨by omega, by simpa using h.symm⟩

/-- A word of INIT's micro-program by its place (R109). -/
theorem init_word {c : Cfg} {k : Nat} {u : UopWord} (h : (expandInit c)[k]? = some u) :
    (k = 0 ∧ u = clrrdyWord) ∨ (1 ≤ k ∧ k ≤ (initBody c).length ∧ (initBody c)[k - 1]? = some u ∧ BusUop c u) ∨
    (k = (initBody c).length + 1 ∧ u = setrdyWord) ∨ (k = (initBody c).length + 2 ∧ u = endWord) := by
  rw [expandInit_eq] at h
  cases k with
  | zero => exact .inl ⟨rfl, by simpa using h.symm⟩
  | succ j =>
    rw [List.getElem?_cons_succ, List.getElem?_append] at h
    split at h
    · exact .inr (.inl ⟨by omega, by omega, h, initBody_busUop c u (List.mem_of_getElem? h)⟩)
    · rename_i hj
      have : j - (initBody c).length < 2 := by
        by_contra hne
        rw [List.getElem?_eq_none (by simp; omega)] at h
        cases h
      have hc : j - (initBody c).length = 0 ∨ j - (initBody c).length = 1 := by omega
      rcases hc with hc | hc <;> rw [hc] at h
      · exact .inr (.inr (.inl ⟨by omega, by simpa using h.symm⟩))
      · exact .inr (.inr (.inr ⟨by omega, by simpa using h.symm⟩))

theorem expand_length_le (op : ReqOp) (cls : DelayClass) (b : Byte) (c : Cfg) : (expand op cls b c).length ≤ 127 := by
  cases op with
  | cmd => simp [expand, expandCmd, byteProg_length]
  | data => simp [expand, expandData, byteProg_length]
  | init =>
    have := initRwProg_length_le c
    simp only [expand, expandInit_eq, List.length_cons, List.length_append, List.length_nil, initBody_length]
    omega

theorem expand_length_pos (op : ReqOp) (cls : DelayClass) (b : Byte) (c : Cfg) : 0 < (expand op cls b c).length := by
  cases op <;> simp [expand, expandCmd, expandData, expandInit_eq]

/-- A word of any micro-program: a bus micro-op, INIT's CLRRDY or SETRDY, or the END, each at its place. -/
theorem expand_word {op : ReqOp} {cls : DelayClass} {b : Byte} {c : Cfg} {k : Nat} {u : UopWord}
    (h : (expand op cls b c)[k]? = some u) :
    (BusUop c u ∧ k + 1 < (expand op cls b c).length ∧ (op = .init → 1 ≤ k ∧ k + 2 < (expand op cls b c).length)) ∨
    (u = endWord ∧ k + 1 = (expand op cls b c).length) ∨
    (op = .init ∧ u = clrrdyWord ∧ k = 0) ∨ (op = .init ∧ u = setrdyWord ∧ k + 2 = (expand op cls b c).length) := by
  cases op with
  | cmd =>
    simp only [expand, expandCmd_eq] at h ⊢
    rcases transfer_word (transferBody_busUop c _ _ _) h with ⟨hk, _, hu⟩ | ⟨hk, hu⟩
    · exact .inl ⟨hu, by simpa using hk, by simp⟩
    · exact .inr (.inl ⟨hu, by simpa using hk⟩)
  | data =>
    simp only [expand, expandData_eq] at h ⊢
    rcases transfer_word (transferBody_busUop c _ _ _) h with ⟨hk, _, hu⟩ | ⟨hk, hu⟩
    · exact .inl ⟨hu, by simpa using hk, by simp⟩
    · exact .inr (.inl ⟨hu, by simpa using hk⟩)
  | init =>
    simp only [expand] at h ⊢
    have hl : (expandInit c).length = (initBody c).length + 3 := by simp [expandInit_eq]
    rcases init_word h with ⟨rfl, hu⟩ | ⟨h1, hk, _, hu⟩ | ⟨hk, hu⟩ | ⟨hk, hu⟩
    · exact .inr (.inr (.inl ⟨trivial, hu, rfl⟩))
    · exact .inl ⟨hu, by omega, fun _ => by omega⟩
    · exact .inr (.inr (.inr ⟨trivial, hu, by omega⟩))
    · exact .inr (.inl ⟨hu, by omega⟩)

end Sys2Proof.Machine
end

