-- ==== Sys2Proof/Laws/Run.lean ====
section
/-!
SUPPORT. Running several steps: a stretch of bus micro-ops runs to its end when the environment makes no move, one step a
SETPIN and two a WAIT.
-/

namespace Sys2Proof.Machine

/-- The steps a micro-op word takes: a WAIT returns in a step of its own (R93). -/
def uopSteps (u : UopWord) : Nat :=
  match decodeUop u with
  | .instr (.wait _) => 2
  | _ => 1

/-- The steps a micro-program takes. -/
def progSteps (us : List UopWord) : Nat := (us.map uopSteps).sum

/-- The latches after a micro-program. -/
def progPins (q : Pins) (us : List UopWord) : Pins := (progEvents Config.defaultTiming us).foldl pinsAfter q

theorem run_add (m n : Nat) (s t : State) (h : run m s = .next t) : run (m + n) s = run n t := by
  induction m generalizing s with
  | zero => cases h; simp
  | succ m ih =>
    rw [show m + 1 + n = (m + n) + 1 by omega, run]
    rw [run] at h
    split at h
    · exact ih _ h
    · cases h
    · cases h

theorem upc_succ {u : Upc} (h : u.toNat + 1 < 128) : (u + 1#7).toNat = u.toNat + 1 := by
  simp [BitVec.toNat_add]
  omega

/-- With no environment move, a step in EXEC runs the micro-op at `UPC` (R90). -/
theorem step_exec {s : State} {u : UopWord} {i : Instr} (hh : s.host = []) (hp : s.phase = .exec)
    (hu : fetch s = some u) (hd : decodeUop u = .instr i) : step s = exec i (passTime s) := by
  have hu' : fetch (passTime s) = some u := hu
  unfold step turn
  simp only [passTime_host, hh, blockTurn, passTime_phase, hp, fetchTurn, hu', hd]

/-- With no environment move, a step in DELAY is the delay's return (R93). -/
theorem step_delay {s : State} (hh : s.host = []) (hp : s.phase = .delay) :
    step s = .next (returnDelay (passTime s)) := by
  unfold step turn
  simp only [passTime_host, hh, blockTurn, passTime_phase, hp]

/-- With no environment move, a step in IDLE runs the request whose word is the oldest at the port (R119). -/
theorem step_port {s : State} {w : ReqWord} {rest : List ReqWord} {i : Instr} (hh : s.host = []) (hp : s.phase = .idle)
    (hw : s.held = w :: rest) (hd : decodeReq w = .instr i) : step s = exec i { passTime s with held := rest } := by
  unfold step turn
  simp only [passTime_host, hh, blockTurn, passTime_phase, hp, portTurn, passTime_held, hw, hd]

theorem progEvents_append (t : Timing) (us vs : List UopWord) :
    progEvents t (us ++ vs) = progEvents t us ++ progEvents t vs := by
  simp [progEvents]

theorem progDelay_append (t : Timing) (us vs : List UopWord) :
    progDelay t (us ++ vs) = progDelay t us + progDelay t vs := by
  simp [progDelay, progEvents]

theorem progSteps_append (us vs : List UopWord) : progSteps (us ++ vs) = progSteps us + progSteps vs := by
  simp [progSteps]

/-- What running a stretch of bus micro-ops leaves: `t` from `s` by the micro-ops `us`. -/
structure Ran (s : State) (us : List UopWord) (t : State) : Prop where
  phase : t.phase = .exec
  upc : t.upc.toNat = s.upc.toNat + us.length
  pins : t.pins = progPins s.pins us
  events : events t = events s ++ progEvents s.timing us
  clock : s.now + progDelay s.timing us ≤ t.now
  same : { t with phase := s.phase, upc := s.upc, pins := s.pins, trace := s.trace, now := s.now, dreq := s.dreq,
                  delayFrom := s.delayFrom, tick := s.tick } = s

theorem uopEvent_setpin (t : Timing) (p : Pin) (v : Bool) : uopEvent t (setpinWord p v) = some (.set p v) := by
  unfold uopEvent
  rw [decodeUop_setpinWord]
  cases p <;> rfl

theorem uopEvent_wait (t : Timing) (n : TimeName) : uopEvent t (waitWord n) = some (.wait (timingOf t n)) := by
  unfold uopEvent
  rw [decodeUop_waitWord]

theorem uopSteps_setpin (p : Pin) (v : Bool) : uopSteps (setpinWord p v) = 1 := by
  unfold uopSteps
  rw [decodeUop_setpinWord]
  cases p <;> rfl

theorem uopSteps_wait (n : TimeName) : uopSteps (waitWord n) = 2 := by
  unfold uopSteps
  rw [decodeUop_waitWord]

/-- One bus micro-op runs. -/
theorem run_uop {s : State} {u : UopWord} (hh : s.host = []) (hp : s.phase = .exec) (hu : fetch s = some u)
    (hb : BusUop s.cfg u) (hl : s.upc.toNat + 1 < 128) : ∃ t, run (uopSteps u) s = .next t ∧ Ran s [u] t := by
  rcases hb with ⟨p, v, rfl, hr⟩ | ⟨n, rfl⟩
  · refine ⟨driven p v (passTime s), ?_, ?_⟩
    · rw [uopSteps_setpin, run, step_exec hh hp hu (decodeUop_setpinWord p v), exec_setpin,
        drivePin_next p v (passTime s) hr]
      rfl
    · constructor
      · exact hp
      · exact upc_succ hl
      · simp [driven, progPins, progEvents, uopEvent_setpin, pinsAfter]
      · simp [driven, events, progEvents, uopEvent_setpin]
      · simp [driven, progDelay, progEvents, uopEvent_setpin, eventDelay]
      · rfl
  · refine ⟨returnDelay (passTime (startDelay (timingOf s.timing n) (passTime s))), ?_, ?_⟩
    · rw [uopSteps_wait, run, step_exec hh hp hu (decodeUop_waitWord n)]
      show run 1 (startDelay (timingOf s.timing n) (passTime s)) = _
      rw [run, step_delay (s := startDelay (timingOf s.timing n) (passTime s)) hh rfl]
      rfl
    · constructor
      · rfl
      · exact upc_succ hl
      · simp [progPins, progEvents, uopEvent_wait, pinsAfter]
      · simp [events, progEvents, uopEvent_wait]
      · have hd : progDelay s.timing [waitWord n] = timingOf s.timing n := by
          simp [progDelay, progEvents, uopEvent_wait, eventDelay]
        have h1 : s.now ≤ (passTime s).now := by simp
        have h2 : (passTime s).now + timingOf s.timing n ≤
            (returnDelay (passTime (startDelay (timingOf s.timing n) (passTime s)))).now := by simp
        omega
      · simp

theorem Ran.trans {s t r : State} {us vs : List UopWord} (h : Ran s us t) (g : Ran t vs r) : Ran s (us ++ vs) r := by
  obtain ⟨hp, hu, hq, he, hc, hs⟩ := h
  obtain ⟨gp, gu, gq, ge, gc, gs⟩ := g
  have ht : t.timing = s.timing := by simpa using congrArg State.timing hs
  rw [ht] at ge gc
  constructor
  · exact gp
  · rw [gu, hu, List.length_append]
    omega
  · rw [gq, hq]
    simp [progPins, progEvents]
  · rw [ge, he]
    simp [progEvents]
  · have : progDelay s.timing (us ++ vs) = progDelay s.timing us + progDelay s.timing vs := by
      simp [progDelay, progEvents]
    omega
  · rw [← hs, ← gs]

/-- A stretch of bus micro-ops runs to its end when the environment makes no move. -/
theorem run_bus (us : List UopWord) : ∀ (s : State) (rest : List UopWord), s.host = [] → s.phase = .exec →
    s.uprog.drop s.upc.toNat = us ++ rest → (∀ u ∈ us, BusUop s.cfg u) → s.upc.toNat + us.length < 128 →
    ∃ t, run (progSteps us) s = .next t ∧ Ran s us t := by
  induction us with
  | nil =>
    intro s rest _ hp _ _ _
    refine ⟨s, rfl, hp, by simp, by simp [progPins, progEvents], by simp [progEvents], by simp [progDelay, progEvents],
      rfl⟩
  | cons u us ih =>
    intro s rest hh hp hd hb hl
    have hu : fetch s = some u := by
      have := congrArg (·[0]?) hd
      simpa [fetch] using this
    simp only [List.length_cons] at hl
    obtain ⟨t, hr, ht⟩ := run_uop hh hp hu (hb u (by simp)) (by omega)
    have hs := ht.same
    have hprog : t.uprog = s.uprog := by simpa using congrArg State.uprog hs
    have hcfg : t.cfg = s.cfg := by simpa using congrArg State.cfg hs
    have hhost : t.host = s.host := by simpa using congrArg State.host hs
    have hup := ht.upc
    simp only [List.length_cons, List.length_nil] at hup
    obtain ⟨r, hr2, hr3⟩ := ih t rest (hhost.trans hh) ht.phase
      (by
        rw [hprog, hup, show s.upc.toNat + (0 + 1) = s.upc.toNat + 1 by omega, ← List.drop_drop, hd]
        rfl)
      (fun v hv => hcfg ▸ hb v (by simp [hv])) (by omega)
    refine ⟨r, ?_, ht.trans hr3⟩
    have : progSteps (u :: us) = uopSteps u + progSteps us := by simp [progSteps]
    rw [this, run_add _ _ _ _ hr, hr2]

end Sys2Proof.Machine
end

