-- ==== Sys2Proof/Machine/Text.lean ====
section
/-!
DEFINITION. The textual syntax of R77 (decision D27): one line of text to the instruction it encodes. Points R77 leaves
open (spaces and tabs separate, a number above 255 is refused, letters match as written) are assumption 20.
-/

namespace Sys2Proof.Machine

/-- A token of a line. -/
inductive Token where
  | word (cs : List Char)
  | comma
  /-- a character in single quotes -/
  | chr (c : Char)
  deriving DecidableEq, Repr

/-- What a line says. -/
inductive Line where
  | blank
  | instr (i : Instr)
  | bad
  deriving DecidableEq, Repr

/-- The word collected so far, in front of the tokens that follow. -/
def flushWord (acc : List Char) (ts : List Token) : List Token :=
  if acc.isEmpty then ts else .word acc.reverse :: ts

/-- The tokens of a line; a semicolon outside quotes starts a comment (R77). -/
def tokensFrom : List Char → List Char → List Token
  | [], acc => flushWord acc []
  | '\'' :: c :: '\'' :: rest, acc => flushWord acc (.chr c :: tokensFrom rest [])
  | c :: rest, acc =>
    if c = ';' then flushWord acc []
    else if c = ',' then flushWord acc (.comma :: tokensFrom rest [])
    else if c = ' ' ∨ c = '\t' then flushWord acc (tokensFrom rest [])
    else tokensFrom rest (c :: acc)

/-- The value of a digit, up to `f`. -/
def digitValue (c : Char) : Option Nat :=
  let n := c.toNat
  if 48 ≤ n ∧ n ≤ 57 then some (n - 48)
  else if 97 ≤ n ∧ n ≤ 102 then some (n - 87)
  else if 65 ≤ n ∧ n ≤ 70 then some (n - 55)
  else none

/-- The value of digits in a base, after a value read so far. -/
def digitsFrom (base : Nat) : List Char → Nat → Option Nat
  | [], v => some v
  | c :: cs, v =>
    match digitValue c with
    | some d => if d < base then digitsFrom base cs (v * base + d) else none
    | none => none

/-- A number: decimal, `0x` hex or `0b` binary (R77). -/
def numberOf (cs : List Char) : Option Nat :=
  match cs with
  | [] => none
  | '0' :: 'x' :: [] => none
  | '0' :: 'b' :: [] => none
  | '0' :: 'x' :: ds => digitsFrom 16 ds 0
  | '0' :: 'b' :: ds => digitsFrom 2 ds 0
  | ds => digitsFrom 10 ds 0

/-- The value of a token as an 8-bit byte: a number or a character's code (R77). DESIGN CHOICE: R77 names ASCII codes only;
a character outside ASCII has its Unicode code point when that is below 256, and makes the line bad above (assumption 20). -/
def byteOfToken (t : Token) : Option Byte :=
  let v : Option Nat := match t with
    | .word cs => numberOf cs
    | .chr c => some c.toNat
    | .comma => none
  match v with
  | some n => if n < 256 then some (BitVec.ofNat 8 n) else none
  | none => none

/-- The pin of a name (R77). -/
def pinOfName (cs : List Char) : Option Pin :=
  if cs = "D4".toList then some .d4 else if cs = "D5".toList then some .d5
  else if cs = "D6".toList then some .d6 else if cs = "D7".toList then some .d7
  else if cs = "RS".toList then some .rs else if cs = "E".toList then some .e
  else if cs = "RW".toList then some .rw else none

/-- The `TIMING` entry of a name (R23, R77). -/
def timeOfName (cs : List Char) : Option TimeName :=
  if cs = "T_SETUP".toList then some .setup else if cs = "T_PW".toList then some .pw
  else if cs = "T_HOLD".toList then some .hold else if cs = "T_SHORT".toList then some .short
  else if cs = "T_LONG".toList then some .long else if cs = "T_POWERON".toList then some .powerOn
  else if cs = "T_INIT1".toList then some .init1 else if cs = "T_INIT2".toList then some .init2 else none

/-- The class of a name (R77). -/
def classOfName (cs : List Char) : Option DelayClass :=
  if cs = "short".toList then some .short else if cs = "long".toList then some .long else none

/-- The level `0` or `1` (R77). -/
def levelOfName (cs : List Char) : Option Bool :=
  if cs = ['0'] then some false else if cs = ['1'] then some true else none

/-- A line with an instruction on it, when the optional parts were read. -/
def lineOf (i : Option Instr) : Line :=
  match i with
  | some i => .instr i
  | none => .bad

/-- The instruction of a line's tokens (R77): an absent class is `short`. -/
def lineOfTokens (ts : List Token) : Line :=
  match ts with
  | [] => .blank
  | [.word m] =>
    if m = "init".toList then .instr .init else if m = "end".toList then .instr .endOp
    else if m = "setrdy".toList then .instr .setrdy else if m = "clrrdy".toList then .instr .clrrdy else .bad
  | [.word m, t] =>
    if m = "cmd".toList then lineOf ((byteOfToken t).map (.cmd .short))
    else if m = "data".toList then lineOf ((byteOfToken t).map .data)
    else if m = "wait".toList then
      match t with
      | .word n => lineOf ((timeOfName n).map .wait)
      | _ => .bad
    else .bad
  | [.word m, t, .comma, .word x] =>
    if m = "cmd".toList then lineOf ((byteOfToken t).bind fun b => (classOfName x).map fun c => .cmd c b)
    else if m = "setpin".toList then
      match t with
      | .word p => lineOf ((pinOfName p).bind fun q => (levelOfName x).map (setpin q))
      | _ => .bad
    else .bad
  | _ => .bad

/-- One line of text (R77). -/
def readLine (cs : List Char) : Line := lineOfTokens (tokensFrom cs [])

end Sys2Proof.Machine
end

