-- ==== Sys2Proof/Tests/Slice0.lean ====
section
/-!
SUPPORT. Small tests of one step or one word each, their expected results from spec/95_test_vectors.md or worked out by hand
from the rule named, and a witness for the hypotheses of every statement that has some.
-/

namespace Sys2Proof.Tests

open Sys2Proof.Machine

/-! ## Small states and readers -/

/-- A block that is Ready and idle. -/
def readyBlock : State := { State.reset with ready := true, farSync := .aligned }

/-- A block executing the micro-op `u` at `UPC = k`. -/
def executing (k : Upc) (u : UopWord) : State :=
  { State.reset with phase := .exec, upc := k, uprog := List.replicate k.toNat 0x43 ++ [u, 0x80] }

/-- A block waiting in `wait T_LONG` since time 7. -/
def waitingBlock : State :=
  { State.reset with phase := .delay, uprog := [0x44, 0x80], dreq := 2000000, delayFrom := 7, now := 7 }

/-- A block to which INIT has been submitted. -/
def submitted : State := { State.reset with held := [0x800] }

/-- Does the outcome go on, to a state with the property? -/
def goesOn (o : Host.Outcome State Fault Refusal) (p : State → Bool) : Bool :=
  match o with
  | .next t => p t
  | .fault _ => false
  | .refused _ => false

/-- Does the outcome stop with this fault? -/
def stopsWith (o : Host.Outcome State Fault Refusal) (f : Fault) : Bool :=
  match o with
  | .next _ => false
  | .fault g => f == g
  | .refused _ => false

/-- Events stamped as early as their WAITs allow, from a time on. -/
def stamped (t : Nat) : List Event → List Stamped
  | [] => []
  | e :: es => ⟨t, e⟩ :: stamped (t + eventDelay e) es

/-- Two DATA requests one after the other. -/
def twoTransfers : List Event :=
  transferEvents Config.defaultTiming true 0x41 50000 ++ [.done, .accept 0x442]
    ++ transferEvents Config.defaultTiming true 0x42 50000

/-! ## Well-formedness smoke: each check refuses an ill-formed term -/

/-- R21; vector 2.6 "Construction with CFG = {N 1, F 1}: refused". -/
theorem test_wf_cfg_refused : Cfg.legal ⟨true, true, false⟩ = false := by decide

/-- R23; vector 2.6 "T_SHORT = 60 000, T_LONG = 50 000: refused". -/
theorem test_wf_timing_refused :
    Timing.legal { Config.defaultTiming with tShort := 60000, tLong := 50000 } = false := by decide

/-- R139: `RWP = 0` with an `RW` handle. -/
theorem test_wf_handles_refused :
    ConstructArgs.legal { resetArgs with cfg := ⟨true, false, false⟩ } = false := by decide

/-- R139: `RWP = 1` without an `RW` handle. -/
theorem test_wf_no_handle_refused :
    ConstructArgs.legal { resetArgs with handles := { resetArgs.handles with rw := none } } = false := by decide

/-- R72: SETPIN RW in a block without the handle. -/
theorem test_wf_setpin_rw_refused : Instr.wellFormed ⟨false, false, false⟩ (.setpinRW false) = false := by decide

/-- R72: a BadUop word (pin 7). -/
theorem test_wf_bad_uop_refused : uopWellFormed ⟨false, false, true⟩ 0x38 = false := by decide

/-- R94: a micro-program without END. -/
theorem test_wf_no_end_refused : microProgramWellFormed ⟨false, false, true⟩ [0x29, 0x41] = false := by decide

/-- R26, R94: an END before the last place. -/
theorem test_wf_early_end_refused : microProgramWellFormed ⟨false, false, true⟩ [0x80, 0x80] = false := by decide

set_option maxRecDepth 20000 in
/-- R27: 128 micro-ops. -/
theorem test_wf_too_long_refused :
    microProgramWellFormed ⟨false, false, true⟩ (List.replicate 127 0x43 ++ [0x80]) = false := by decide

set_option maxRecDepth 20000 in
/-- R27: 127 micro-ops are allowed. -/
theorem test_wf_longest_allowed :
    microProgramWellFormed ⟨false, false, true⟩ (List.replicate 126 0x43 ++ [0x80]) = true := by decide

/-! ## Decoding: words written out bit by bit from R67 and R69 -/

/-- Vector 2.1. -/
theorem test_decode_cmd : decodeReq 0b000111111111 = .instr (.cmd .long 0xFF) ∧
    decodeReq 0b000000000000 = .instr (.cmd .short 0x00) := by decide

/-- Vector 2.1. -/
theorem test_decode_data : decodeReq 0b010001000001 = .instr (.data 0x41) ∧
    decodeReq 0b010011111111 = .instr (.data 0xFF) := by decide

/-- Vector 2.1. -/
theorem test_decode_init : decodeReq 0b100000000000 = .instr .init := by decide

/-- Vector 2.1: the illegal words, each by its reason (R74). -/
theorem test_decode_illegal :
    [0x200, 0x3FF, 0x541, 0x600, 0x801, 0x900, 0xC00, 0xFFF].map decodeReq =
      [.bad .reservedReqBit, .bad .reservedReqBit, .bad .classOnData, .bad .reservedReqBit, .bad .byteOnInit,
        .bad .classOnInit, .bad .reservedOp, .bad .reservedReqBit] := by decide

/-- R69: `00 ppp 00 l` for each pin. -/
theorem test_decode_setpin :
    [0b00000001, 0b00001000, 0b00010001, 0b00011000, 0b00100001, 0b00101000, 0b00110001].map decodeUop =
      [.instr (.setpinD4 true), .instr (.setpinD5 false), .instr (.setpinD6 true), .instr (.setpinD7 false),
        .instr (.setpinRS true), .instr (.setpinE false), .instr (.setpinRW true)] := by decide

/-- R69, R23: `01 000 iii` for each index. -/
theorem test_decode_wait :
    [0x40, 0x41, 0x42, 0x43, 0x44, 0x45, 0x46, 0x47].map decodeUop =
      [.instr (.wait .setup), .instr (.wait .pw), .instr (.wait .hold), .instr (.wait .short), .instr (.wait .long),
        .instr (.wait .powerOn), .instr (.wait .init1), .instr (.wait .init2)] := by decide

/-- R69: CTRL. -/
theorem test_decode_ctrl :
    [0b10000000, 0b10000001, 0b10000010].map decodeUop = [.instr .endOp, .instr .setrdy, .instr .clrrdy] := by decide

/-- Vector 2.2: the BadUop words, each by its reason, with the words next to the legal ones. -/
theorem test_decode_bad_uop :
    [0x38, 0x02, 0x36, 0x48, 0x7F, 0x83, 0xBF, 0xC0, 0xFF].map decodeUop =
      [.bad .reservedPin, .bad .reservedSetpinBits, .bad .reservedSetpinBits, .bad .reservedWaitBits,
        .bad .reservedWaitBits, .bad .reservedFn, .bad .reservedFn, .bad .reservedKind, .bad .reservedKind] := by decide

/-- The table's words reach the decoder in both formats, and no wider word does. -/
theorem test_decode_table_word :
    decodeTableWord 16 0x441 = some (.data 0x41) ∧ decodeTableWord 12 0x101 = some (.cmd .long 0x01) ∧
    decodeTableWord 8 0x29 = some (.setpinE true) ∧ decodeTableWord 8 0x38 = none ∧
    decodeTableWord 16 0x1441 = none := by decide

/-- The rows of spec/opcode_table.json, one instruction each. -/
def oneOfEach : List Instr :=
  [.cmd .short 0, .data 0, .init, .setpinD4 false, .setpinD5 false, .setpinD6 false, .setpinD7 false, .setpinRS false,
    .setpinE false, .setpinRW false, .wait .setup, .endOp, .setrdy, .clrrdy]

/-- No two rows of one format overlap: their patterns differ in a bit both masks fix (R73). -/
theorem test_rows_disjoint :
    (oneOfEach.map tableRow).Pairwise fun r q =>
      r.request ≠ q.request ∨ r.mask &&& q.mask &&& (r.pat ^^^ q.pat) ≠ 0 := by decide

/-! ## Micro-ops (vectors 2.3) -/

/-- `setpin E,1`: from `PIN[E] = 0, UPC = 5` to `PIN[E] = 1, UPC = 6`, event `E1`. -/
theorem test_step_setpin_e :
    goesOn (step { executing 5 0x29 with pins := { Pins.undriven with e := some false } }) (fun t =>
      t.pins == { Pins.undriven with e := some true } && t.upc == 6 && events t == [.set .e true]) = true := by decide

/-- `setpin D4,1` of a latch that is 1 already is executed and recorded. -/
theorem test_step_setpin_same_level :
    goesOn (step { executing 1 0x01 with pins := { Pins.undriven with d4 := some true } }) (fun t =>
      t.pins.d4 == some true && t.upc == 2 && events t == [.set .d4 true]) = true := by decide

/-- R33: each data pin and `RS` write their own latch only. -/
theorem test_step_setpin_latches :
    [0x08, 0x11, 0x18, 0x21].map (fun u => goesOn (step (executing 0 u)) (fun t =>
      t.pins == (match u with
        | 0x08 => { Pins.undriven with d5 := some false }
        | 0x11 => { Pins.undriven with d6 := some true }
        | 0x18 => { Pins.undriven with d7 := some false }
        | _ => { Pins.undriven with rs := some true }))) = [true, true, true, true] := by decide

/-- `setpin RW,0` in a block with the handle. -/
theorem test_step_setpin_rw :
    goesOn (step (executing 3 0x30)) (fun t => t.pins == { Pins.undriven with rw := some false } && t.upc == 4) = true := by
  decide

/-- Vector 2.2: `setpin RW` with `RWP = 0` is `MicrocodeFault`. -/
theorem test_step_setpin_rw_fault :
    stopsWith (step { executing 3 0x30 with cfg := ⟨true, false, false⟩ }) .microcodeFault = true := by decide

/-- `wait T_LONG` at `UPC = 19` asks for 2 000 000 ns and stays at 19. -/
theorem test_step_wait :
    goesOn (step (executing 19 0x44)) (fun t =>
      t.phase == .delay && t.dreq == 2000000 && t.upc == 19 && events t == [.wait 2000000] && stat t == 0b0010) = true := by
  decide

/-- Its return goes on at `UPC + 1`. -/
theorem test_step_delay_returns :
    goesOn (step waitingBlock) (fun t => t.phase == .exec && t.upc == 1 && events t == []) = true := by decide

/-- `end`: `LAST = 1` becomes 0, `PHASE = IDLE`, `Done(OK)`. -/
theorem test_step_end :
    goesOn (step { executing 20 0x80 with last := .notInitialized }) (fun t =>
      t.phase == .idle && t.last == .ok && t.upc == 20 && events t == [.done] && t.farSync == .unknown &&
      t.replies == [.status .ok] && requestEnded t) = true := by decide

set_option maxRecDepth 20000 in
/-- R61: INIT's END aligns the far end. -/
theorem test_step_end_of_init :
    goesOn (step { executing 126 0x80 with reqOp := .init }) (fun t => t.farSync == .aligned) = true := by decide

set_option maxRecDepth 20000 in
/-- `setrdy` of INIT with `RWP = 1`: `READY 0, UPC 125` to `READY 1, UPC 126`, no event. -/
theorem test_step_setrdy :
    goesOn (step (executing 125 0x81)) (fun t => t.ready && t.upc == 126 && events t == []) = true := by decide

/-- `clrrdy`: `READY 1, UPC 0` to `READY 0, UPC 1`. -/
theorem test_step_clrrdy :
    goesOn (step { executing 0 0x82 with ready := true }) (fun t => !t.ready && t.upc == 1 && events t == []) = true := by
  decide

/-- R118: a BadUop word stops the block. -/
theorem test_step_bad_uop : stopsWith (step (executing 0 0xC0)) .microcodeFault = true := by decide

/-! ## Requests (vectors 2.5 to 2.8) -/

/-- The micro-program words of `cmd 0x01, long`. -/
theorem test_expand_cmd :
    expandCmd .long 0x01 =
      [0x20, 0x00, 0x08, 0x10, 0x18, 0x40, 0x29, 0x41, 0x28, 0x42, 0x01, 0x08, 0x10, 0x18, 0x40, 0x29, 0x41, 0x28, 0x42,
        0x44, 0x80] := by decide

/-- The micro-program words of `data 0x1F`. -/
theorem test_expand_data :
    expandData 0x1F =
      [0x21, 0x01, 0x08, 0x10, 0x18, 0x40, 0x29, 0x41, 0x28, 0x42, 0x01, 0x09, 0x11, 0x19, 0x40, 0x29, 0x41, 0x28, 0x42,
        0x43, 0x80] := by decide

set_option maxRecDepth 20000 in
/-- The micro-program words of INIT for `CFG = {N 1, F 0, RWP 0}` (vector 2.6). -/
theorem test_expand_init :
    expandInit ⟨true, false, false⟩ =
      [0x82, 0x28, 0x20, 0x45]
      ++ [0x01, 0x09, 0x10, 0x18, 0x40, 0x29, 0x41, 0x28, 0x42, 0x46]
      ++ [0x01, 0x09, 0x10, 0x18, 0x40, 0x29, 0x41, 0x28, 0x42, 0x47]
      ++ [0x01, 0x09, 0x10, 0x18, 0x40, 0x29, 0x41, 0x28, 0x42, 0x43]
      ++ [0x00, 0x09, 0x10, 0x18, 0x40, 0x29, 0x41, 0x28, 0x42, 0x43]
      ++ [0x20, 0x00, 0x09, 0x10, 0x18, 0x40, 0x29, 0x41, 0x28, 0x42, 0x00, 0x08, 0x10, 0x19, 0x40, 0x29, 0x41, 0x28, 0x42, 0x43]
      ++ [0x20, 0x00, 0x08, 0x10, 0x18, 0x40, 0x29, 0x41, 0x28, 0x42, 0x00, 0x08, 0x10, 0x19, 0x40, 0x29, 0x41, 0x28, 0x42, 0x43]
      ++ [0x20, 0x00, 0x08, 0x10, 0x18, 0x40, 0x29, 0x41, 0x28, 0x42, 0x01, 0x08, 0x10, 0x18, 0x40, 0x29, 0x41, 0x28, 0x42, 0x44]
      ++ [0x20, 0x00, 0x08, 0x10, 0x18, 0x40, 0x29, 0x41, 0x28, 0x42, 0x00, 0x09, 0x11, 0x18, 0x40, 0x29, 0x41, 0x28, 0x42, 0x43]
      ++ [0x81, 0x80] := by decide

set_option maxRecDepth 20000 in
/-- Its minimum duration with the default `TIMING`, 56 936 000 ns (R155). -/
theorem test_init_minimum : progDelay Config.defaultTiming (expandInit ⟨true, false, false⟩) = 56936000 := by decide

/-- A Ready block accepts `cmd 0x01, long`. -/
theorem test_step_cmd :
    goesOn (step { readyBlock with held := [0x101] }) (fun t =>
      t.phase == .exec && t.upc == 0 && latchedWord t == 0x101 && t.held == [] && events t == [.accept 0x101]) = true := by
  decide

/-- W6: DATA on a fresh block is `NotInitialized`, `LAST = 1`, no pin driven, `Reject` only. -/
theorem test_step_data_not_ready :
    goesOn (step { State.reset with held := [0x441] }) (fun t =>
      t.phase == .idle && t.last == .notInitialized && t.pins == Pins.undriven && t.uprog == [] &&
      events t == [.reject 0x441 .notInitialized] && t.replies == [.status .notInitialized] && stat t == 0b0100) = true := by
  decide

/-- A Ready block accepts DATA. -/
theorem test_step_data :
    goesOn (step { readyBlock with held := [0x441], last := .illegalRequest }) (fun t =>
      t.phase == .exec && latchedWord t == 0x441 && t.last == .illegalRequest) = true := by decide

/-- Vector 2.7: 0x541 on a fresh block is `IllegalRequest`, not `NotInitialized`. -/
theorem test_step_illegal :
    goesOn (step { State.reset with held := [0x541] }) (fun t =>
      t.last == .illegalRequest && events t == [.reject 0x541 .illegalRequest] && stat t == 0b1000) = true := by decide

set_option maxRecDepth 20000 in
/-- INIT is accepted by a fresh block. -/
theorem test_step_init :
    goesOn (step submitted) (fun t =>
      t.phase == .exec && t.uprog.length == 127 && latchedWord t == 0x800 && !t.ready) = true := by decide

/-- R121: a word submitted while busy is held. -/
theorem test_step_held :
    goesOn (step { waitingBlock with host := [.submit 0x442] }) (fun t =>
      t.phase == .delay && t.held == [0x442] && events t == []) = true := by decide

/-- Vector 2.8: a reset in the middle of a transfer. -/
theorem test_step_reset :
    goesOn (step { waitingBlock with host := [.reset resetArgs], ready := true, trace := [⟨7, .wait 2000000⟩] }) (fun t =>
      t.phase == .idle && !t.ready && t.pins == Pins.undriven && t.farSync == .unknown && events t == [] &&
      t.earlierTraces == [[⟨7, .wait 2000000⟩]]) = true := by decide

/-- With nothing submitted a fresh block idles. -/
theorem test_step_idle : goesOn (step State.reset) (fun t => t.phase == .idle && events t == []) = true := by decide

set_option maxRecDepth 20000 in
/-- Each opcode-table row runs as the first instruction after reset. -/
theorem test_rows_run_after_reset :
    [(16, 0x000), (16, 0x400), (16, 0x800), (8, 0x00), (8, 0x08), (8, 0x10), (8, 0x18), (8, 0x20), (8, 0x28), (8, 0x30),
      (8, 0x40), (8, 0x80), (8, 0x81), (8, 0x82)].all
      (fun p => goesOn (step (State.reset.withFetchWord p.1 p.2)) fun _ => true) = true := by decide

/-! ## The trace decoder, the assembler, the pseudo-instructions, hazards, several blocks -/

/-- R64: a lone cycle, or a pair with two levels of `RS`, is no byte. -/
theorem test_frames_garbled :
    frames [⟨some false, some false, some false, some true, some true⟩] 0 = [.garbled] ∧
    frames [⟨some false, some false, some true, some false, some false⟩,
      ⟨some true, some false, some false, some false, some true⟩] 0 = [.garbled] := by decide

/-- R64, R112: a `Set(E, 0)` from `?` is no cycle, and is reported apart. -/
theorem test_spurious : cycles [.set .e false] = [] ∧ spuriousFrom Pins.undriven [.set .e false] = 1 := by decide

/-- R77: the examples of R103 and R104, and a micro-op listing line. -/
theorem test_text :
    readLine "cmd 0x01, long".toList = .instr (.cmd .long 0x01) ∧
    readLine "cmd 255 ; all ones".toList = .instr (.cmd .short 0xFF) ∧
    readLine "data 'A'".toList = .instr (.data 0x41) ∧ readLine "  init".toList = .instr .init ∧
    readLine "setpin E, 1".toList = .instr (.setpinE true) ∧ readLine "wait T_LONG".toList = .instr (.wait .long) ∧
    readLine "data 0b1010".toList = .instr (.data 0x0A) ∧ readLine "; nothing".toList = .blank ∧
    readLine "cmd 256".toList = .bad := by decide

/-- Assumption 20: a quoted character outside ASCII. -/
theorem test_text_not_ascii : readLine "data 'é'".toList = .instr (.data 0xE9) ∧ readLine "data 'λ'".toList = .bad := by decide

/-- Vector W1 and P1: `cursor 1, 3`, `display_ctl 1, 0, 0`, `entry_mode 1, 0`, `function_set 1, 0`, `shift 1, 1`. -/
theorem test_pseudo :
    expandPseudo (.cursor (.row1 3)) = [.cmd .short 0xC3] ∧ expandPseudo (.displayCtl true false false) = [.cmd .short 0x0C] ∧
    expandPseudo (.entryMode true false) = [.cmd .short 0x06] ∧
    expandPseudo (.functionSet true false) = [.cmd .short 0x28] ∧ expandPseudo (.shift true true) = [.cmd .short 0x1C] ∧
    expandPseudo (.puts [0x41, 0x42]) = [.data 0x41, .data 0x42] := by decide

/-- R88, at the ends of both rows' columns. -/
theorem test_cursor_columns :
    expandPseudo (.cursor (.row0 64)) = [.cmd .short 0xC0] ∧ expandPseudo (.cursor (.row0 127)) = [.cmd .short 0xFF] ∧
    expandPseudo (.cursor (.row1 0)) = [.cmd .short 0xC0] ∧ expandPseudo (.cursor (.row1 63)) = [.cmd .short 0xFF] := by
  decide

/-- Program P3: the glyph's requests. -/
theorem test_glyph :
    (expandPseudo (.glyph 0 #v[0x00, 0x0A, 0x1F, 0x1F, 0x0E, 0x04, 0x00, 0x00] 0x02)).map encode =
      [.req 0x040, .req 0x400, .req 0x40A, .req 0x41F, .req 0x41F, .req 0x40E, .req 0x404, .req 0x400, .req 0x400,
        .req 0x082] := by decide

/-- R145: `cmd 0x01` of the short class is the hazard, of the long class not. -/
theorem test_class_hazard : classHazard (.cmd .short 0x01) = true ∧ classHazard (.cmd .long 0x01) = false := by decide

/-- R146, R157: the default `TIMING` meets the comparison figures of R157 where it gives one. -/
theorem test_timing_meets :
    timingMeets Config.defaultTiming ⟨40, 0, 0, 37000, 1520000, 40000000, 4100000, 100000⟩ = true := by decide

/-- R133: a second block on the same pins is refused. -/
theorem test_blocks_apart : addBlock resetArgs [State.reset] = none := by decide

/-! ## Witnesses: states and operands that meet the hypotheses of the statements -/

theorem witness_EncodeOfDecodeIsSame : decode (.req 0x4FF) = .instr (.data 0xFF) ∧ decode (.uop 0x47) = .instr (.wait .init2) := by
  decide

/-- One word for each clause of the request table, at the ends of its range. -/
theorem witness_RequestDecodingTable :
    decodeReq 0x3FF = .bad .reservedReqBit ∧ decodeReq 0x1FF = .instr (.cmd .long 0xFF) ∧
    decodeReq 0x400 = .instr (.data 0x00) ∧ decodeReq 0x800 = .instr .init ∧ decodeReq 0x5FF = .bad .classOnData ∧
    decodeReq 0x900 = .bad .classOnInit ∧ decodeReq 0x8FF = .bad .byteOnInit ∧ decodeReq 0xDFF = .bad .reservedOp ∧
    { readyBlock with held := [0xDFF] }.host = [] ∧ { readyBlock with held := [0xDFF] }.phase = .idle := by decide

/-- One word for each clause of the micro-op table, at the ends of its range. -/
theorem witness_MicroOpDecodingTable :
    decodeUop 0x31 = .instr (.setpinRW true) ∧ decodeUop 0x00 = .instr (.setpinD4 false) ∧
    decodeUop 0x40 = .instr (.wait .setup) ∧ decodeUop 0x47 = .instr (.wait .init2) ∧ decodeUop 0x82 = .instr .clrrdy ∧
    decodeUop 0x3F = .bad .reservedPin ∧ decodeUop 0x37 = .bad .reservedSetpinBits ∧ decodeUop 0x48 = .bad .reservedWaitBits ∧
    decodeUop 0x83 = .bad .reservedFn ∧ decodeUop 0xC0 = .bad .reservedKind := by decide

theorem witness_ConstructionGivesResetState : construct resetArgs = some State.reset := by decide

theorem witness_StatusViewReadable :
    { waitingBlock with host := [.readStat] }.host = .readStat :: [] ∧
    goesOn (step { waitingBlock with host := [.readStat] }) (fun t => t.replies == [.stat 0b0010]) = true := by decide

theorem witness_SetpinDrivesItsPin : State.reset.cfg.rwp = true := by decide

theorem witness_SetpinFrame : goesOn (exec (setpin .rw true) State.reset) (fun _ => true) = true := by decide

theorem witness_DelayReturnsNoEarlier : waitingBlock.phase = .delay ∧ waitingBlock.host = [] := by decide

theorem witness_HungDelayNeverCompletes :
    { waitingBlock with host := [.neverReturns] }.phase = .delay ∧
    { waitingBlock with host := [.neverReturns] }.host = .neverReturns :: [] := by decide

/-- Also the witness of DataAcceptedWhenReady and InitAcceptedInEveryMode. -/
theorem witness_CmdAcceptedWhenReady : readyBlock.phase = .idle ∧ readyBlock.ready = true := by decide

theorem witness_TransferRejectedWhenNotReady : State.reset.phase = .idle ∧ State.reset.ready = false := by decide

theorem witness_IllegalWordRejectedInEveryMode :
    { readyBlock with held := [0x541] }.host = [] ∧ { readyBlock with held := [0x541] }.phase = .idle ∧
    decodeReq 0x541 = .bad .classOnData := by decide

theorem witness_RequestHeldWhileBusy : waitingBlock.phase ≠ .idle := by decide

theorem witness_SubmittedWordIsQueued :
    { State.reset with host := [.submit 0x800] }.host = .submit 0x800 :: [] := by decide

/-- A request that is accepted, one that is rejected and one that is held all meet the premises. -/
theorem witness_RequestFrame :
    Instr.isRequest (.cmd .short 0x80) = true ∧
    goesOn (exec (.cmd .short 0x80) readyBlock) (fun t => t.phase == .exec) = true ∧
    goesOn (exec (.cmd .short 0x80) State.reset) (fun t => t.phase == .idle) = true ∧
    goesOn (exec (.cmd .short 0x80) waitingBlock) (fun t => t.phase == .delay) = true := by decide

theorem witness_StepRunsFetchedMicroOp :
    (executing 5 0x29).phase = .exec ∧ (executing 5 0x29).uprog[(executing 5 0x29).upc.toNat]? = some 0x29 ∧
    decodeUop 0x29 = .instr (.setpinE true) ∧ (executing 5 0x29).host = [] ∧
    { executing 5 0x29 with host := [.run] }.host = .run :: [] := by decide

theorem witness_StepRunsSubmittedRequest :
    submitted.phase = .idle ∧ submitted.held = 0x800 :: [] ∧ decodeReq 0x800 = .instr .init ∧ submitted.host = [] ∧
    { submitted with host := [.run] }.host = .run :: [] := by decide

/-- Both causes of a `MicrocodeFault`. -/
theorem witness_MicrocodeFaultExactly :
    stopsWith (step (executing 0 0x38)) .microcodeFault = true ∧
    stopsWith (step { executing 0 0x31 with cfg := ⟨false, true, false⟩ }) .microcodeFault = true := by decide

set_option maxRecDepth 20000 in
/-- Both values of `r`. -/
theorem witness_InitProgramByPlace :
    (expandInit ⟨true, false, false⟩).length = 126 ∧ (expandInit ⟨false, true, true⟩).length = 127 := by decide

theorem witness_FunctionSetByteOfCfg :
    Cfg.legal ⟨true, false, true⟩ = true ∧ Cfg.legal ⟨false, true, true⟩ = true ∧ Cfg.legal ⟨false, false, true⟩ = true := by
  decide

/-- Both values of `E` that are not high: never driven, and low. -/
theorem witness_InitDecodesToItsFrames :
    Pins.undriven.e ≠ some true ∧ { Pins.undriven with e := some false }.e ≠ some true := by decide

set_option maxRecDepth 20000 in
/-- A cycle and then an event; a transfer, its `Done`, and then the next request's transfer, whose setup is at place 7. -/
theorem witness_BusCycleMeetsItsTimes :
    ((stamped 0 (cycleEvents Config.defaultTiming true true false false)).map (·.event) =
      cycleEvents Config.defaultTiming true true false false ∧
    Timed (stamped 0 (cycleEvents Config.defaultTiming true true false false ++ [.set .d4 false]))) ∧
    ((stamped 0 twoTransfers).map (·.event) = transferEvents Config.defaultTiming true 0x41 50000 ++ twoTransfers.drop 20 ∧
    Timed (stamped 0 twoTransfers) ∧ (twoTransfers.drop 20)[7]? = some (.wait Config.defaultTiming.tSetup) ∧
    ([0, 6, 15, 17, 28].map fun k => (stamped 0 twoTransfers)[k]?.isSome) = [true, true, true, true, true]) := by
  unfold Timed
  decide

theorem witness_RequestMinimumDuration :
    (stamped 0 (endedEvents State.reset.cfg Config.defaultTiming (.completed .cmd .long 0x01))).map (·.event) =
      .accept 0x101 :: (transferEvents Config.defaultTiming false 0x01 2000000 ++ [.done]) ∧
    Timed (stamped 0 (endedEvents State.reset.cfg Config.defaultTiming (.completed .cmd .long 0x01))) := by
  unfold Timed
  decide

/-- Also the witness of the other statements whose one premise is a step. -/
theorem witness_ClockNeverGoesBack :
    goesOn (step waitingBlock) (fun t => t.phase == .exec) = true ∧ waitingBlock.phase = .delay := by decide

/-- The premises of the invariants that every step keeps, in a block whose next step accepts INIT. -/
theorem witness_StepKeepsInvariant :
    Inv submitted ∧ TraceTimed submitted ∧ TraceFollows submitted ∧ EnableTracks submitted ∧ FirstDrive submitted ∧
    goesOn (step submitted) (fun t => t.phase == .exec) = true := by
  refine ⟨?_, ?_, ⟨[], rfl⟩, (by show submitted.pins.e ≠ some true; decide), .inr ⟨rfl, rfl, rfl, fun h => absurd rfl h⟩, by decide⟩
  · exact {
      legal := by decide
      program := fun h => absurd rfl h
      inside := fun h => absurd rfl h
      waiting := fun h => by cases h
      noRw := fun h => by cases h
      transferReady := fun h => absurd rfl h
      initReady := fun h => absurd rfl h
      framed := fun h => by cases h }
  · exact ⟨List.Pairwise.nil, fun e he => by cases he⟩

theorem witness_ConfigurationImmutable :
    goesOn (step submitted) (fun t => t.phase == .exec) = true ∧ submitted.host = [] := by decide

set_option maxRecDepth 20000 in
/-- SETRDY, CLRRDY and a construction each change `READY`. -/
theorem witness_ReadyChangesOnlyByItsMicroOps :
    goesOn (step (executing 125 0x81)) (fun t => t.ready) = true ∧ (executing 125 0x81).ready = false ∧
    goesOn (step { executing 0 0x82 with ready := true }) (fun t => !t.ready) = true ∧
    goesOn (step { readyBlock with host := [.reset resetArgs] }) (fun t => !t.ready) = true := by decide

/-- A SETPIN and a construction each change a latch. -/
theorem witness_LatchesChangeOnlyBySetpin :
    goesOn (step (executing 0 0x29)) (fun t => latch t.pins .e == some true) = true ∧
    latch (executing 0 0x29).pins .e = none ∧
    goesOn (step { readyBlock with pins := { Pins.undriven with e := some false }, host := [.reset resetArgs] })
      (fun t => latch t.pins .e == none) = true := by decide

/-- A step that accepts, and one that does not. -/
theorem witness_ProgramWrittenOnlyAtAccept :
    goesOn (step submitted) (fun t => t.uprog != submitted.uprog) = true ∧
    goesOn (step (executing 0 0x29)) (fun t => t.uprog == (executing 0 0x29).uprog) = true := by decide

theorem witness_PinsInfluenceNothing : goesOn (step (executing 0 0x29)) (fun _ => true) = true := by decide

theorem witness_ResetAbandonsTheRequest :
    { waitingBlock with host := [.reset resetArgs] }.host = .reset resetArgs :: [] ∧ resetArgs.legal = true := by decide

theorem witness_RefusedResetChangesNothing :
    ConstructArgs.legal { resetArgs with cfg := ⟨true, true, true⟩ } = false ∧
    goesOn (step { waitingBlock with host := [.reset { resetArgs with cfg := ⟨true, true, true⟩ }] })
      (fun t => t.phase == .delay && t.replies == [.constructionRefused]) = true := by decide

/-- Also the witness of DataRunsToItsEnd, with the word 0x441. -/
theorem witness_CmdRunsToItsEnd :
    { readyBlock with held := [0x101] }.host = [] ∧ { readyBlock with held := [0x101] }.phase = .idle ∧
    { readyBlock with held := [0x101] }.ready = true ∧ cmdWord .long 0x01 = 0x101 ∧ dataWord 0x41 = 0x441 := by decide

theorem witness_InitRunsToReady : submitted.host = [] ∧ submitted.phase = .idle ∧ submitted.held = initWord :: [] := by
  decide

theorem witness_PseudoInstructionsCarryTheirClass :
    Instr.cmd .long 0x02 ∈ expandPseudo .home ∧ Instr.cmd .short 0x48 ∈ expandPseudo (.glyph 1 (Vector.replicate 8 0) 0) := by
  decide

/-- The last of the eight rows; the bits above the five are dropped (R89). -/
theorem witness_GlyphRestoresTheAddress :
    7 < 8 ∧ (expandPseudo (.glyph 7 (Vector.replicate 8 0xFF) 0x7F))[8]? = some (.data 0x1F) := by decide

/-- Two blocks on disjoint pins. -/
def twoBlocks : List State := [submitted, { State.reset with handles := ⟨10, 11, 12, 13, 14, 15, some 16⟩ }]

/-- The premises of both clauses: the blocks are apart, each steps by no construction, and so among the others. -/
theorem witness_BlocksShareNothing :
    allApart twoBlocks = true ∧ twoBlocks[0]? = some submitted ∧ goesOn (step submitted) (fun _ => true) = true ∧
    submitted.host = [] ∧ (stepAt 0 twoBlocks).isSome = true ∧ (stepAt 1 twoBlocks).isSome = true := by decide

end Sys2Proof.Tests
end

section
/-!
PROOFS. The family 10_state.md: construction, the status view, what a step changes of a block's own state, and the block's
invariant.
-/

namespace Sys2Proof.Machine

/-! ## Construction and the environment's moves -/

/-- An accepted construction: the arguments are legal and the state is that of R37 with them (R139). -/
theorem construct_some {a : ConstructArgs} {n : State} (h : construct a = some n) :
    a.legal = true ∧ n = { State.reset with cfg := a.cfg, timing := a.timing, handles := a.handles } := by
  unfold construct at h
  split at h
  · exact ⟨‹_›, by simpa using h.symm⟩
  · cases h

@[simp] theorem latch_undriven (p : Pin) : latch Pins.undriven p = none := by
  cases p <;> rfl

/-- A step at a construction entry of the script (R137, R139). -/
theorem step_reset {s : State} {a : ConstructArgs} {rest : List HostMove} (hh : s.host = .reset a :: rest) :
    step s = .next (resetBlock a { passTime s with host := rest }) := by
  unfold step turn
  simp only [passTime_host, hh]

/-- A step at which the client reads `STAT` (R30, R137). -/
theorem step_readStat {s : State} {rest : List HostMove} (hh : s.host = .readStat :: rest) :
    step s = .next (answer (.stat (stat s)) { passTime s with host := rest }) := by
  unfold step turn
  simp only [passTime_host, hh]
  rfl

/-! ## What a step changes of the block's own state -/

/-- `t` is the block `s` after a move of its environment: only the clock, the script, the words at the port and what the
environment got back differ (R137). -/
def SameBlock (s t : State) : Prop :=
  { t with now := s.now, tick := s.tick, host := s.host, held := s.held, replies := s.replies } = s

theorem SameBlock.config {s t : State} (h : SameBlock s t) :
    t.cfg = s.cfg ∧ t.timing = s.timing ∧ t.handles = s.handles := by
  rw [← h]
  exact ⟨rfl, rfl, rfl⟩

theorem SameBlock.ready {s t : State} (h : SameBlock s t) : t.ready = s.ready := by
  rw [← h]

theorem SameBlock.pins {s t : State} (h : SameBlock s t) : t.pins = s.pins := by
  rw [← h]

/-- What a step can do to the block: a turn of its own, nothing, or an accepted construction in its place. -/
theorem step_block_cases {s t : State} (h : step s = .next t) :
    (∃ rest, Moves { passTime s with host := rest } t) ∨ SameBlock s t ∨
    (∃ a rest, s.host = .reset a :: rest ∧ a.legal = true ∧ t = resetBlock a { passTime s with host := rest }) := by
  rcases step_cases h with hm | ⟨_, rfl⟩ | ⟨_, _, rfl⟩ | ⟨_, rfl⟩ | ⟨a, rest, hh, rfl⟩
  · exact .inl hm
  · exact .inr (.inl rfl)
  · exact .inr (.inl rfl)
  · exact .inr (.inl rfl)
  · cases ha : a.legal with
    | true => exact .inr (.inr ⟨a, rest, hh, ha, rfl⟩)
    | false =>
      rw [resetBlock_illegal ha]
      exact .inr (.inl rfl)

/-- No turn of the block writes a construction argument (R22). -/
theorem moves_config {s t : State} (h : Moves s t) : t.cfg = s.cfg ∧ t.timing = s.timing ∧ t.handles = s.handles := by
  cases h <;> exact ⟨rfl, rfl, rfl⟩

/-- A turn of the block writes `READY` only by SETRDY and CLRRDY (R29, R95, R96). -/
theorem moves_ready {s t : State} (h : Moves s t) :
    t.ready = s.ready ∨ (s.phase = .exec ∧ fetch s = some setrdyWord ∧ t.ready = true) ∨
    (s.phase = .exec ∧ fetch s = some clrrdyWord ∧ t.ready = false) := by
  cases h with
  | setsReady hp hu => exact .inr (.inl ⟨hp, hu, rfl⟩)
  | clearsReady hp hu => exact .inr (.inr ⟨hp, hu, rfl⟩)
  | _ => exact .inl rfl

/-- A turn of the block writes the latch of a pin only by a SETPIN of that pin (R32, R92). -/
theorem moves_latch {s t : State} (h : Moves s t) (p : Pin) :
    latch t.pins p = latch s.pins p ∨
    ∃ v, s.phase = .exec ∧ fetch s = some (setpinWord p v) ∧ latch t.pins p = some v := by
  cases h with
  | drives q v hp hu hr =>
    by_cases hq : p = q
    · subst hq
      exact .inr ⟨v, hp, hu, latch_setLatch_same s.pins p v⟩
    · exact .inl (latch_setLatch_other s.pins v hq)
  | _ => exact .inl rfl

/-! ## The invariant -/

/-- `Inv` speaks of the block's own state: not of the clock, the trace, the port, the environment or `LAST`; and of the
latches only through `RW`. -/
theorem Inv.frame {s : State} (h : Inv s) {q : Pins} (hq : s.cfg.rwp = false → q.rw = none) (now tick : Nat)
    (trace : List Stamped) (earlier : List (List Stamped)) (host : List HostMove) (held : List ReqWord)
    (replies : List Reply) (last : Status) :
    Inv { s with
      pins := q, now := now, tick := tick, trace := trace, earlierTraces := earlier, host := host, held := held,
      replies := replies, last := last } :=
  ⟨h.legal, h.program, h.inside, h.waiting, hq, h.transferReady, h.initReady, h.framed⟩

theorem Inv.sameBlock {s t : State} (h : Inv s) (hst : SameBlock s t) : Inv t := by
  rw [← hst] at h
  exact h.frame h.noRw t.now t.tick t.trace t.earlierTraces t.host t.held t.replies t.last

/-- The state of R37 meets the invariant, for legal arguments. -/
theorem inv_constructed {a : ConstructArgs} (ha : a.legal = true) :
    Inv { State.reset with cfg := a.cfg, timing := a.timing, handles := a.handles } where
  legal := ha
  program h := absurd rfl h
  inside h := absurd rfl h
  waiting h := nomatch h
  noRw _ := rfl
  transferReady h := absurd rfl h
  initReady h := absurd rfl h
  framed h := nomatch h

theorem inv_resetBlock {s : State} {a : ConstructArgs} (ha : a.legal = true) : Inv (resetBlock a s) := by
  rw [resetBlock_legal ha]
  exact (inv_constructed ha).frame (fun _ => rfl) s.now s.tick _ _ s.host _ s.replies _

/-- An idle block that is Ready is framed, so accepting a request keeps the invariant (R119, R61). -/
theorem inv_accept {s : State} {op : ReqOp} {cls : DelayClass} {b : Byte} (h : Inv s) (hp : s.phase = .idle)
    (hr : op ≠ .init → s.ready = true) : Inv (accept op cls b (expand op cls b s.cfg) s) where
  legal := h.legal
  program _ := rfl
  inside _ := expand_length_pos op cls b s.cfg
  waiting h := nomatch h
  noRw := h.noRw
  transferReady _ := hr
  initReady _ _ _ := .inl rfl
  framed hready := .inl ((h.framed hready).resolve_right fun ⟨hb, _⟩ => hb hp)

/-- The word at `UPC` of a busy block, by its place in `UPROG` (R26, R90). -/
theorem Inv.word_place {s : State} {u : UopWord} (h : Inv s) (hp : s.phase ≠ .idle) (hu : fetch s = some u) :
    (BusUop s.cfg u ∧ s.upc.toNat + 1 < s.uprog.length ∧
      (s.reqOp = .init → 1 ≤ s.upc.toNat ∧ s.upc.toNat + 2 < s.uprog.length)) ∨
    (u = endWord ∧ s.upc.toNat + 1 = s.uprog.length) ∨
    (s.reqOp = .init ∧ u = clrrdyWord ∧ s.upc.toNat = 0) ∨
    (s.reqOp = .init ∧ u = setrdyWord ∧ s.upc.toNat + 2 = s.uprog.length) := by
  unfold fetch at hu
  rw [h.program hp] at hu ⊢
  exact expand_word hu

theorem Inv.bus_place {s : State} {u : UopWord} (h : Inv s) (hp : s.phase ≠ .idle) (hu : fetch s = some u)
    (hb : BusUop s.cfg u) :
    s.upc.toNat + 1 < s.uprog.length ∧ (s.reqOp = .init → 1 ≤ s.upc.toNat ∧ s.upc.toNat + 2 < s.uprog.length) := by
  rcases h.word_place hp hu with ⟨_, hk⟩ | ⟨rfl, _⟩ | ⟨_, rfl, _⟩ | ⟨_, rfl, _⟩
  · exact hk
  · exact absurd rfl (busUop_ne_end hb)
  · exact absurd rfl (busUop_ne_clrrdy hb)
  · exact absurd rfl (busUop_ne_setrdy hb)

theorem Inv.clrrdy_place {s : State} (h : Inv s) (hp : s.phase ≠ .idle) (hu : fetch s = some clrrdyWord) :
    s.reqOp = .init ∧ s.upc.toNat = 0 := by
  rcases h.word_place hp hu with ⟨hb, _⟩ | ⟨hw, _⟩ | ⟨ho, _, hk⟩ | ⟨_, hw, _⟩
  · exact absurd rfl (busUop_ne_clrrdy hb)
  · exact absurd hw (by decide)
  · exact ⟨ho, hk⟩
  · exact absurd hw (by decide)

theorem Inv.setrdy_place {s : State} (h : Inv s) (hp : s.phase ≠ .idle) (hu : fetch s = some setrdyWord) :
    s.reqOp = .init ∧ s.upc.toNat + 2 = s.uprog.length := by
  rcases h.word_place hp hu with ⟨hb, _⟩ | ⟨hw, _⟩ | ⟨_, hw, _⟩ | ⟨ho, _, hk⟩
  · exact absurd rfl (busUop_ne_setrdy hb)
  · exact absurd hw (by decide)
  · exact absurd hw (by decide)
  · exact ⟨ho, hk⟩

/-- `UPC` does not wrap while a place follows it (R26, R27). -/
theorem Inv.upc_advance {s : State} (h : Inv s) (hp : s.phase ≠ .idle) (hk : s.upc.toNat + 1 < s.uprog.length) :
    (s.upc + 1).toNat = s.upc.toNat + 1 := by
  have hl := expand_length_le s.reqOp s.reqCls s.reqByte s.cfg
  rw [← h.program hp] at hl
  exact upc_succ (by omega)

/-- Going past a bus micro-op keeps the invariant: INIT is then between CLRRDY and SETRDY, where the block is not Ready. -/
theorem Inv.advance_bus {s : State} {u : UopWord} (h : Inv s) (hp : s.phase ≠ .idle) (hu : fetch s = some u)
    (hb : BusUop s.cfg u) {q : Phase} (hq : q = .exec) : Inv (advance { s with phase := q }) := by
  obtain ⟨hk, hinit⟩ := h.bus_place hp hu hb
  have hup := h.upc_advance hp hk
  subst hq
  exact {
    legal := h.legal
    program := fun _ => h.program hp
    inside := fun _ => hup.trans_lt hk
    waiting := fun h => nomatch h
    noRw := h.noRw
    transferReady := fun _ => h.transferReady hp
    initReady := fun _ ho hr => by
      obtain ⟨h1, h2⟩ := hinit ho
      rcases h.initReady hp ho hr with h0 | hlast
      · simp [h0] at h1
      · omega
    framed := fun hr => (h.framed hr).imp_right fun ⟨_, ho⟩ => ⟨by simp, ho⟩ }

theorem inv_driven {s : State} {p : Pin} {v : Bool} (h : Inv s) (hp : s.phase = .exec)
    (hu : fetch s = some (setpinWord p v)) (hr : p = .rw → s.cfg.rwp = true) : Inv (driven p v s) := by
  have hadv := h.advance_bus (by simp [hp]) hu (.inl ⟨p, v, rfl, hr⟩) hp
  have hrw : s.cfg.rwp = false → latch (setLatch s.pins p v) .rw = none := fun hc => by
    have hne : Pin.rw ≠ p := fun e => by simp [hr e.symm] at hc
    rw [latch_setLatch_other s.pins v hne]
    exact h.noRw hc
  exact hadv.frame hrw s.now s.tick _ s.earlierTraces s.host s.held s.replies s.last

/-- A WAIT's delay is outstanding while `UPC` stays at it (R28, R93). -/
theorem inv_startDelay {s : State} {n : TimeName} (h : Inv s) (hp : s.phase = .exec)
    (hu : fetch s = some (waitWord n)) : Inv (startDelay (timingOf s.timing n) s) := by
  have hb : s.phase ≠ .idle := by simp [hp]
  exact {
    legal := h.legal
    program := fun _ => h.program hb
    inside := fun _ => h.inside hb
    waiting := fun _ => ⟨n, hu, rfl⟩
    noRw := h.noRw
    transferReady := fun _ => h.transferReady hb
    initReady := fun _ => h.initReady hb
    framed := fun hr => (h.framed hr).imp_right fun ⟨_, ho⟩ => ⟨by simp, ho⟩ }

theorem inv_returnDelay {s : State} (h : Inv s) (hp : s.phase = .delay) : Inv (returnDelay s) := by
  obtain ⟨n, hu, _⟩ := h.waiting hp
  have hadv := h.advance_bus (by simp [hp]) hu (wait_busUop s.cfg n) rfl
  exact hadv.frame h.noRw _ s.tick s.trace s.earlierTraces s.host s.held s.replies s.last

/-- The END of INIT aligns the far end, and a transfer runs only in a framed block (R61, R62). -/
theorem inv_finish {s : State} (h : Inv s) : Inv (finish s) where
  legal := h.legal
  program hp := absurd rfl hp
  inside hp := absurd rfl hp
  waiting hp := nomatch hp
  noRw := h.noRw
  transferReady hp := absurd rfl hp
  initReady hp := absurd rfl hp
  framed hr := .inl <| by
    rw [finish_farSync]
    rcases h.framed hr with ha | ⟨_, ho⟩
    · cases ho : s.reqOp with
      | init => rfl
      | cmd | data => exact ha
    · rw [ho]
      rfl

/-- SETRDY is the last micro-op but one of INIT (R95, R109). -/
theorem inv_setReady {s : State} (h : Inv s) (hp : s.phase = .exec) (hu : fetch s = some setrdyWord) :
    Inv (advance (setReady s)) := by
  have hb : s.phase ≠ .idle := by simp [hp]
  obtain ⟨ho, hk⟩ := h.setrdy_place hb hu
  have hup := h.upc_advance hb (by omega)
  exact {
    legal := h.legal
    program := fun _ => h.program hb
    inside := fun _ => hup.trans_lt (show s.upc.toNat + 1 < s.uprog.length by omega)
    waiting := fun hd => by simp [hp] at hd
    noRw := h.noRw
    transferReady := fun _ hne => absurd ho hne
    initReady := fun _ _ _ => .inr (hup.trans (show _ = s.uprog.length - 1 by omega))
    framed := fun _ => .inr ⟨hb, ho⟩ }

/-- CLRRDY is the first micro-op of INIT (R96, R109). -/
theorem inv_clearReady {s : State} (h : Inv s) (hp : s.phase = .exec) (hu : fetch s = some clrrdyWord) :
    Inv (advance (clearReady s)) := by
  have hb : s.phase ≠ .idle := by simp [hp]
  obtain ⟨ho, hk⟩ := h.clrrdy_place hb hu
  have hlen : s.upc.toNat + 1 < s.uprog.length := by
    simp [h.program hb, ho, hk, expand, expandInit_eq]
  exact {
    legal := h.legal
    program := fun _ => h.program hb
    inside := fun _ => (h.upc_advance hb hlen).trans_lt hlen
    waiting := fun hd => by simp [hp] at hd
    noRw := h.noRw
    transferReady := fun _ hne => absurd ho hne
    initReady := fun _ _ hr => nomatch hr
    framed := fun hr => nomatch hr }

/-- Every turn of the block keeps the invariant. -/
theorem inv_moves {s t : State} (h : Inv s) (hm : Moves s t) : Inv t := by
  cases hm with
  | idles => exact h
  | illegal w rest => exact h.frame h.noRw s.now s.tick _ s.earlierTraces s.host rest _ .illegalRequest
  | notReady op cls b rest => exact h.frame h.noRw s.now s.tick _ s.earlierTraces s.host rest _ .notInitialized
  | accepts op cls b rest hp _ _ hr =>
    have hrest : Inv { s with held := rest } :=
      h.frame h.noRw s.now s.tick s.trace s.earlierTraces s.host rest s.replies s.last
    exact inv_accept hrest hp hr
  | drives p v hp hu hr => exact inv_driven h hp hu hr
  | waits n hp hu => exact inv_startDelay h hp hu
  | ends => exact inv_finish h
  | setsReady hp hu => exact inv_setReady h hp hu
  | clearsReady hp hu => exact inv_clearReady h hp hu
  | returns hp => exact inv_returnDelay h hp

/-- Time and the taking of a script entry keep the invariant. -/
theorem inv_passTime {s : State} (h : Inv s) (rest : List HostMove) : Inv { passTime s with host := rest } :=
  h.frame h.noRw _ _ s.trace s.earlierTraces rest s.held s.replies s.last

/-- Settles O42: every turn of the block, every move of the environment and every construction keeps the invariant. -/
theorem stepKeepsInvariant : Obligations.StepKeepsInvariant := by
  intro s t h hst
  rcases step_block_cases hst with ⟨rest, hm⟩ | hsame | ⟨a, rest, _, ha, rfl⟩
  · exact inv_moves (inv_passTime h rest) hm
  · exact h.sameBlock hsame
  · exact inv_resetBlock ha

/-! ## A block that meets its invariant goes on -/

/-- The port always goes on: each word is accepted, rejected or refused as illegal (R119 to R122). -/
theorem portTurn_completes (s : State) : ∃ t, portTurn s = .next t := by
  unfold portTurn
  split
  · exact ⟨_, rfl⟩
  · split
    · exact ⟨_, rfl⟩
    · rename_i hd
      rcases decodeReq_instr hd with ⟨c, b, rfl, _⟩ | ⟨b, rfl, _⟩ | ⟨rfl, _⟩ <;>
        exact submitRequest_completes _ _ _ _ _ _

theorem fetchTurn_instr {s : State} {u : UopWord} {i : Instr} (hu : fetch s = some u) (hd : decodeUop u = .instr i) :
    fetchTurn s = exec i s := by
  simp only [fetchTurn, hu, hd]

/-- A busy block fetches a micro-op of its program, and a SETPIN RW only with the handle (R26, R72). -/
theorem fetchTurn_completes {s : State} (h : Inv s) (hp : s.phase ≠ .idle) : ∃ t, fetchTurn s = .next t := by
  obtain ⟨u, hu⟩ : ∃ u, fetch s = some u := ⟨_, List.getElem?_eq_getElem (h.inside hp)⟩
  rcases h.word_place hp hu with ⟨⟨p, v, rfl, hr⟩ | ⟨n, rfl⟩, _⟩ | ⟨rfl, _⟩ | ⟨_, rfl, _⟩ | ⟨_, rfl, _⟩
  · refine ⟨driven p v s, ?_⟩
    rw [fetchTurn_instr hu (decodeUop_setpinWord p v), exec_setpin, drivePin_next p v s hr]
  · exact ⟨_, fetchTurn_instr hu (decodeUop_waitWord n)⟩
  · exact ⟨_, fetchTurn_instr hu decodeUop_endWord⟩
  · exact ⟨_, fetchTurn_instr hu decodeUop_clrrdyWord⟩
  · exact ⟨_, fetchTurn_instr hu decodeUop_setrdyWord⟩

theorem blockTurn_completes {s : State} (h : Inv s) : ∃ t, blockTurn s = .next t := by
  unfold blockTurn
  split
  · exact portTurn_completes s
  · rename_i hp
    exact fetchTurn_completes h (by simp [hp])
  · exact ⟨_, rfl⟩

/-- Settles O43: the block's turn completes, and the environment's moves always do. -/
theorem invariantBlockNeverStops : Obligations.InvariantBlockNeverStops := by
  intro s h
  have hblock : ∀ rest, ∃ t, blockTurn { passTime s with host := rest } = .next t :=
    fun rest => blockTurn_completes (inv_passTime h rest)
  unfold step turn
  split
  · exact hblock s.host
  · exact hblock _
  · split
    · exact ⟨_, rfl⟩
    · exact hblock s.host
  · exact ⟨_, rfl⟩
  · exact ⟨_, rfl⟩
  · exact ⟨_, rfl⟩
  · exact ⟨_, rfl⟩

/-! ## What only some steps change -/

/-- Settles O48: a step with no construction entry is a turn of the block or leaves the block the same. -/
theorem configurationImmutable : Obligations.ConfigurationImmutable := by
  intro s t hst hno
  rcases step_block_cases hst with ⟨rest, hm⟩ | hsame | ⟨a, rest, hh, _⟩
  · have hc := moves_config hm
    exact hc
  · exact hsame.config
  · exact absurd hh (hno a rest)

/-- Settles O49: of the block's turns only SETRDY and CLRRDY write `READY`, and a construction clears it. -/
theorem readyChangesOnlyByItsMicroOps : Obligations.ReadyChangesOnlyByItsMicroOps := by
  intro s t hst hne
  rcases step_block_cases hst with ⟨rest, hm⟩ | hsame | ⟨a, rest, hh, ha, rfl⟩
  · rcases moves_ready hm with heq | hset | hclear
    · exact absurd heq hne
    · exact .inl hset
    · exact .inr (.inl hclear)
  · exact absurd hsame.ready hne
  · rw [resetBlock_legal ha]
    exact .inr (.inr ⟨a, rest, hh, ha, rfl⟩)

/-- Settles O50: of the block's turns only the SETPIN of a pin writes its latch, and a construction makes it unknown. -/
theorem latchesChangeOnlyBySetpin : Obligations.LatchesChangeOnlyBySetpin := by
  intro s t p hst hne
  rcases step_block_cases hst with ⟨rest, hm⟩ | hsame | ⟨a, rest, hh, ha, rfl⟩
  · rcases moves_latch hm p with heq | hset
    · exact absurd heq hne
    · exact .inl hset
  · exact absurd (by rw [hsame.pins]) hne
  · rw [resetBlock_legal ha]
    exact .inr ⟨a, rest, hh, ha, latch_undriven p⟩

/-! ## Construction, the status view and the timings -/

/-- Settles O6: an accepted construction is `State.reset` with the arguments put in. -/
theorem constructionGivesResetState : Obligations.ConstructionGivesResetState := by
  intro a n h
  obtain ⟨-, rfl⟩ := construct_some h
  exact ⟨rfl, rfl, rfl, rfl, rfl, rfl, rfl, rfl, latch_undriven, rfl⟩

/-- Settles O8: the model's own arguments are legal, so they are constructed as they stand. -/
theorem resetIsAConstruction : Obligations.ResetIsAConstruction := by
  have hlegal : resetArgs.legal = true := by decide
  exact ⟨if_pos hlegal, rfl⟩

/-- Settles O41: the block of R37 is idle, not Ready, with no pin driven and an empty trace. -/
theorem invariantsAtConstruction : Obligations.InvariantsAtConstruction := by
  intro a n h
  obtain ⟨ha, rfl⟩ := construct_some h
  have hundriven : Pins.undriven.e ≠ some true := by decide
  exact ⟨inv_constructed ha, ⟨.nil, fun e he => absurd he List.not_mem_nil⟩, ⟨[], rfl⟩, hundriven,
    .inr ⟨rfl, rfl, rfl, fun hp => absurd rfl hp⟩⟩

theorem stat_ready (s : State) : (stat s).getLsbD 0 = s.ready :=
  BitVec.getLsbD_append.trans (by simp)

theorem stat_succ (s : State) (i : Nat) :
    (stat s).getLsbD (i + 1) = (statusCode s.last ++ BitVec.ofBool (busy s)).getLsbD i :=
  BitVec.getLsbD_append.trans (by simp)

theorem stat_busy (s : State) : (stat s).getLsbD 1 = busy s :=
  (stat_succ s 0).trans (BitVec.getLsbD_append.trans (by simp))

theorem stat_last (s : State) : (stat s).extractLsb' 2 2 = statusCode s.last := by
  ext i hi
  rw [BitVec.getElem_extractLsb', show 2 + i = i + 1 + 1 by omega, stat_succ]
  exact BitVec.getLsbD_append.trans (by simp [hi])

/-- Settles O9: each field of `STAT` by its bits, and the read as the environment's move it is. -/
theorem statusViewReadable : Obligations.StatusViewReadable := by
  refine ⟨fun s => ?_, fun s rest hh => ⟨_, step_readStat hh, rfl, rfl⟩⟩
  rw [stat_ready, stat_busy, stat_last]
  refine ⟨Iff.rfl, ?_, fun hl => ?_, fun hl => ?_, fun hl => ?_⟩
  · simp [busy]
  all_goals
    rw [hl]
    rfl

/-- Settles O13: the eight words are the WAITs of the eight entries of `TIMING` (R23). -/
theorem waitWordsNameTheTimings : Obligations.WaitWordsNameTheTimings := by
  intro t
  have hwords : ([0x40, 0x41, 0x42, 0x43, 0x44, 0x45, 0x46, 0x47] : List UopWord) =
      [.setup, .pw, .hold, .short, .long, .powerOn, .init1, .init2].map waitWord := by decide
  rw [hwords]
  simp [uopEvent_wait, timingOf]

/-- Settles O54: the construction of illegal arguments only gives the environment its refusal. -/
theorem refusedResetChangesNothing : Obligations.RefusedResetChangesNothing := by
  intro s a rest hh ha
  refine ⟨_, step_reset hh, ?_⟩
  rw [resetBlock_illegal ha]
  exact ⟨rfl, rfl⟩

end Sys2Proof.Machine
end

section
/-!
PROOFS. The family 20_memory.md: the clock and the stamps of the trace, the language of the trace, its reference decoder,
and what writes `UPROG`.
-/

namespace Sys2Proof.Machine

/-! ## The clock and the horizon of the trace -/

theorem now_le_horizon (s : State) : s.now ≤ horizon s := by
  unfold horizon
  split <;> simp

/-- Outside DELAY nothing is outstanding (R55(b)). -/
theorem horizon_eq_now {s : State} (hp : s.phase ≠ .delay) : horizon s = s.now := by
  unfold horizon
  split
  · rfl
  · rfl
  · exact absurd ‹_› hp

theorem horizon_delay {s : State} (hp : s.phase = .delay) : horizon s = max s.now (s.delayFrom + s.dreq) := by
  unfold horizon
  rw [hp]

/-- The horizon follows the clock. -/
theorem horizon_mono {s t : State} (hp : t.phase = s.phase) (hf : t.delayFrom = s.delayFrom) (hd : t.dreq = s.dreq)
    (hn : s.now ≤ t.now) : horizon s ≤ horizon t := by
  unfold horizon
  rw [hp, hf, hd]
  split
  · exact hn
  · exact hn
  · exact max_le_max_right _ hn

/-- What a turn of the block does to the trace and the clock: it records nothing and never takes the horizon back, or it
records one event at its own time, with nothing earlier still outstanding (R55, R135). -/
theorem moves_trace {s t : State} (h : Moves s t) :
    (t.trace = s.trace ∧ s.now ≤ t.now ∧ horizon s ≤ horizon t) ∨
    ∃ e, t.trace = s.trace ++ [⟨t.now, e⟩] ∧ t.now = s.now ∧ s.phase ≠ .delay ∧ t.now + eventDelay e ≤ horizon t := by
  cases h with
  | idles => exact .inl ⟨rfl, le_rfl, le_rfl⟩
  | waits => exact .inr ⟨_, rfl, rfl, by simp [*], Nat.le_max_right _ _⟩
  | illegal | notReady | accepts | drives | ends => exact .inr ⟨_, rfl, rfl, by simp [*], now_le_horizon _⟩
  | setsReady | clearsReady => exact .inl ⟨rfl, le_rfl, le_rfl⟩
  | returns hp => exact .inl ⟨rfl, le_max_left _ _, (horizon_delay hp).le⟩

theorem moves_horizon {s t : State} (h : Moves s t) : s.now ≤ t.now ∧ horizon s ≤ horizon t := by
  rcases moves_trace h with ⟨-, hn, hh⟩ | ⟨e, -, hn, hp, -⟩
  · exact ⟨hn, hh⟩
  · rw [horizon_eq_now hp, ← hn]
    exact ⟨le_rfl, now_le_horizon t⟩

theorem horizon_passTime (s : State) (rest : List HostMove) : horizon s ≤ horizon { passTime s with host := rest } :=
  horizon_mono rfl rfl rfl (Nat.le_add_right _ _)

/-- The clock never goes back (R55). -/
theorem step_now_le {s t : State} (h : step s = .next t) : s.now ≤ t.now := by
  have hpass : s.now ≤ (passTime s).now := Nat.le_add_right _ _
  rcases step_cases h with ⟨rest, hm⟩ | ⟨_, rfl⟩ | ⟨_, _, rfl⟩ | ⟨_, rfl⟩ | ⟨a, rest, -, rfl⟩
  · exact hpass.trans (moves_horizon hm).1
  · exact hpass
  · exact hpass
  · exact hpass
  · cases ha : a.legal with
    | true => rwa [resetBlock_legal ha]
    | false => rwa [resetBlock_illegal ha]

theorem SameBlock.horizon_le {s t : State} (h : SameBlock s t) (hn : s.now ≤ t.now) : horizon s ≤ horizon t := by
  refine horizon_mono ?_ ?_ ?_ hn <;> rw [← h]

/-- Settles O40: what is outstanding keeps the horizon of the trace ahead, and only a construction moves it back. -/
theorem clockNeverGoesBack : Obligations.ClockNeverGoesBack := by
  intro s t hst
  have hn := step_now_le hst
  refine ⟨hn, fun hs ht => ?_⟩
  have hend : horizon s ≤ horizon t → s.delayFrom + s.dreq ≤ t.now := fun hh => by
    rw [horizon_delay hs, horizon_eq_now (by simp [ht])] at hh
    exact (le_max_right _ _).trans hh
  rcases step_block_cases hst with ⟨rest, hm⟩ | hsame | ⟨a, rest, -, ha, rfl⟩
  · exact hend ((horizon_passTime s rest).trans (moves_horizon hm).2)
  · exact hend (hsame.horizon_le hn)
  · rw [resetBlock_legal ha] at ht
    cases ht

/-! ## The stamps of the trace -/

/-- Time and the environment's moves keep the trace timed. -/
theorem TraceTimed.later {s t : State} (h : TraceTimed s) (ht : t.trace = s.trace) (hn : s.now ≤ t.now)
    (hh : horizon s ≤ horizon t) : TraceTimed t := by
  obtain ⟨hpair, hdue⟩ := h
  refine ⟨ht ▸ hpair, fun e he => ?_⟩
  obtain ⟨h1, h2⟩ := hdue e (ht ▸ he)
  exact ⟨h1.trans hn, h2.trans hh⟩

/-- An event recorded at the clock keeps the trace timed, when all before it is due by then. -/
theorem TraceTimed.append {s t : State} {e : Event} (h : TraceTimed s) (ht : t.trace = s.trace ++ [⟨t.now, e⟩])
    (hh : horizon s ≤ t.now) (he : t.now + eventDelay e ≤ horizon t) : TraceTimed t := by
  obtain ⟨hpair, hdue⟩ := h
  have hold : ∀ x ∈ s.trace, due x ≤ t.now := fun x hx => (hdue x hx).2.trans hh
  rw [TraceTimed, ht]
  refine ⟨List.pairwise_append.mpr ⟨hpair, List.pairwise_singleton _ _, by simpa using hold⟩, fun x hx => ?_⟩
  rcases List.mem_append.mp hx with hx | hx
  · exact ⟨(hdue x hx).1.trans ((now_le_horizon s).trans hh), (hold x hx).trans (now_le_horizon t)⟩
  · rw [List.mem_singleton.mp hx]
    exact ⟨le_rfl, he⟩

theorem traceTimed_moves {s t : State} (h : TraceTimed s) (hm : Moves s t) : TraceTimed t := by
  rcases moves_trace hm with ⟨ht, hn, hh⟩ | ⟨e, ht, hn, hp, he⟩
  · exact h.later ht hn hh
  · exact h.append ht ((horizon_eq_now hp).trans hn.symm).le he

/-- Settles O44: each event is recorded when everything before it is due, and the horizon only moves on. -/
theorem stepKeepsTraceTimed : Obligations.StepKeepsTraceTimed := by
  intro s t h hst
  rcases step_block_cases hst with ⟨rest, hm⟩ | hsame | ⟨a, rest, -, ha, rfl⟩
  · have hpass : TraceTimed { passTime s with host := rest } :=
      h.later rfl (Nat.le_add_right _ _) (horizon_passTime s rest)
    exact traceTimed_moves hpass hm
  · have hn := step_now_le hst
    exact h.later (by rw [← hsame]) hn (hsame.horizon_le hn)
  · rw [resetBlock_legal ha]
    exact ⟨.nil, fun e he => absurd he List.not_mem_nil⟩

/-! ## The language of the trace -/

/-- The events of the request in progress, in both busy phases. -/
theorem openEvents_busy {s : State} (hp : s.phase ≠ .idle) :
    openEvents s = .accept (latchedWord s) :: progEvents s.timing (s.uprog.take (recorded s)) := by
  unfold openEvents
  split
  · exact absurd ‹_› hp
  · rfl
  · rfl

theorem openEvents_idle {s : State} (hp : s.phase = .idle) : openEvents s = [] := by
  unfold openEvents
  rw [hp]

theorem recorded_exec {s : State} (hp : s.phase = .exec) : recorded s = s.upc.toNat := by
  unfold recorded
  rw [hp]

theorem recorded_delay {s : State} (hp : s.phase = .delay) : recorded s = s.upc.toNat + 1 := by
  unfold recorded
  rw [hp]

/-- The events up to and with the micro-op at `UPC` (R90). -/
theorem progEvents_take_succ {s : State} {u : UopWord} (hu : fetch s = some u) :
    progEvents s.timing (s.uprog.take (s.upc.toNat + 1)) =
      progEvents s.timing (s.uprog.take s.upc.toNat) ++ (uopEvent s.timing u).toList := by
  unfold fetch at hu
  rw [List.take_add_one, hu, progEvents_append]
  cases h : uopEvent s.timing u <;> simp [progEvents, h]

/-- Going past the micro-op at `UPC` adds its event, if it has one, to those of the request in progress. -/
theorem openEvents_next {s t : State} {u : UopWord} (hp : s.phase = .exec) (hu : fetch s = some u)
    (ht : t.phase ≠ .idle) (hr : recorded t = s.upc.toNat + 1) (hw : latchedWord t = latchedWord s)
    (htime : t.timing = s.timing) (hprog : t.uprog = s.uprog) :
    openEvents t = openEvents s ++ (uopEvent s.timing u).toList := by
  rw [openEvents_busy ht, openEvents_busy (by simp [hp]), hr, hw, htime, hprog, progEvents_take_succ hu,
    recorded_exec hp, List.cons_append]

/-- The request in progress goes on: the trace grows by what it has done more. -/
theorem TraceFollows.grow {s t : State} {es : List Event} (h : TraceFollows s) (hc : t.cfg = s.cfg)
    (ht : t.timing = s.timing) (he : events t = events s ++ es) (ho : openEvents t = openEvents s ++ es) :
    TraceFollows t := by
  obtain ⟨done, hd⟩ := h
  exact ⟨done, by rw [he, hd, hc, ht, ho, List.append_assoc]⟩

/-- A request ends: it joins the ended ones, and none is in progress. -/
theorem TraceFollows.close {s t : State} {es : List Event} (d : Ended) (h : TraceFollows s) (hc : t.cfg = s.cfg)
    (ht : t.timing = s.timing) (he : events t = events s ++ es)
    (hd : openEvents s ++ es = endedEvents s.cfg s.timing d) (hp : t.phase = .idle) : TraceFollows t := by
  obtain ⟨done, hdone⟩ := h
  refine ⟨done ++ [d], ?_⟩
  rw [he, hdone, hc, ht, openEvents_idle hp, List.append_assoc, hd]
  simp

theorem TraceFollows.sameBlock {s t : State} (h : TraceFollows s) (hst : SameBlock s t) : TraceFollows t := by
  rw [← hst] at h
  exact h

theorem Inv.end_place {s : State} (h : Inv s) (hp : s.phase ≠ .idle) (hu : fetch s = some endWord) :
    s.upc.toNat + 1 = s.uprog.length := by
  rcases h.word_place hp hu with ⟨hb, _⟩ | ⟨_, hk⟩ | ⟨_, hw, _⟩ | ⟨_, hw, _⟩
  · exact absurd rfl (busUop_ne_end hb)
  · exact hk
  · exact absurd hw (by decide)
  · exact absurd hw (by decide)

/-- Every micro-op but END has one after it, which `UPC` goes on to (R26, R90). -/
theorem Inv.upc_next {s : State} {u : UopWord} (h : Inv s) (hp : s.phase ≠ .idle) (hu : fetch s = some u)
    (hne : u ≠ endWord) : (s.upc + 1).toNat = s.upc.toNat + 1 := by
  refine h.upc_advance hp ?_
  rcases h.word_place hp hu with ⟨_, hk, _⟩ | ⟨hend, _⟩ | ⟨ho, _, hk⟩ | ⟨_, _, hk⟩
  · exact hk
  · exact absurd hend hne
  · simp [h.program hp, ho, hk, expand, expandInit_eq]
  · omega

/-- A rejected word is a whole request of one event (R120). -/
theorem traceFollows_reject {s : State} (h : TraceFollows s) (hp : s.phase = .idle) (w : ReqWord) (c : Status)
    (rest : List ReqWord) : TraceFollows (reject w c { s with held := rest }) :=
  h.close (es := [.reject w c]) (.rejected w c) rfl rfl (by simp [events]) (by rw [openEvents_idle hp]; rfl) hp

/-- END is the last micro-op, so at it the whole micro-program has been run (R94, R26). -/
theorem traceFollows_finish {s : State} (hi : Inv s) (h : TraceFollows s) (hp : s.phase = .exec)
    (hu : fetch s = some endWord) : TraceFollows (finish s) := by
  have hb : s.phase ≠ .idle := by simp [hp]
  have hlast := hi.end_place hb hu
  refine h.close (.completed s.reqOp s.reqCls s.reqByte) (es := [.done]) rfl rfl (by simp [events]) ?_ rfl
  have hrun := progEvents_take_succ hu
  rw [hlast, List.take_length] at hrun
  rw [openEvents_busy hb, recorded_exec hp, endedEvents, ← hi.program hb, hrun]
  rfl

/-- A WAIT is recorded when its delay starts, so its return records nothing more (R93). -/
theorem traceFollows_returnDelay {s : State} (hi : Inv s) (h : TraceFollows s) (hp : s.phase = .delay) :
    TraceFollows (returnDelay s) := by
  obtain ⟨n, hu, -⟩ := hi.waiting hp
  have hb : s.phase ≠ .idle := by simp [hp]
  have hsame : recorded (returnDelay s) = recorded s := by
    rw [recorded_delay hp, recorded_exec (returnDelay_phase s), returnDelay_upc, hi.upc_next hb hu (waitWord_ne_end n)]
  refine h.grow rfl rfl (List.append_nil _).symm ?_
  rw [openEvents_busy (s := returnDelay s) (by simp), openEvents_busy hb, hsame, List.append_nil]
  rfl

/-- A micro-op that runs in one step and goes on to the next keeps the trace, when its event is all it records (R90). -/
theorem traceFollows_next {s t : State} {u : UopWord} (hi : Inv s) (h : TraceFollows s) (hp : s.phase = .exec)
    (hu : fetch s = some u) (hne : u ≠ endWord) (ht : t.phase = .exec) (hup : t.upc = s.upc + 1)
    (hw : latchedWord t = latchedWord s) (hc : t.cfg = s.cfg) (htime : t.timing = s.timing) (hprog : t.uprog = s.uprog)
    (he : events t = events s ++ (uopEvent s.timing u).toList) : TraceFollows t := by
  have hr : recorded t = s.upc.toNat + 1 := by
    rw [recorded_exec ht, hup, hi.upc_next (by simp [hp]) hu hne]
  exact h.grow hc htime he (openEvents_next hp hu (by simp [ht]) hr hw htime hprog)

/-- Every turn of the block takes the request in progress on, ends it, or rejects a word. -/
theorem traceFollows_moves {s t : State} (hi : Inv s) (h : TraceFollows s) (hm : Moves s t) : TraceFollows t := by
  cases hm with
  | idles => exact h
  | illegal w rest why hp => exact traceFollows_reject h hp w _ rest
  | notReady op cls b rest hp => exact traceFollows_reject h hp _ _ rest
  | accepts op cls b rest hp =>
    refine h.grow (es := [.accept (reqWord (reqOpCode op) cls.bit b)]) rfl rfl (by simp [events]) ?_
    rw [openEvents_idle hp]
    rfl
  | drives p v hp hu =>
    refine traceFollows_next hi h hp hu (setpinWord_ne_end p v) hp rfl rfl rfl rfl rfl ?_
    simp [events, driven, uopEvent_setpin]
  | waits n hp hu =>
    refine h.grow rfl rfl ?_ (openEvents_next hp hu (by simp) (recorded_delay rfl) rfl rfl rfl)
    simp [events, uopEvent_wait]
  | ends hp hu => exact traceFollows_finish hi h hp hu
  | setsReady hp hu | clearsReady hp hu =>
    exact traceFollows_next hi h hp hu (by decide) hp rfl rfl rfl rfl rfl (List.append_nil _).symm
  | returns hp => exact traceFollows_returnDelay hi h hp

/-- Settles O45: each turn of the block takes the request in progress one event further, ends it, or rejects a word. -/
theorem stepKeepsTraceLanguage : Obligations.StepKeepsTraceLanguage := by
  intro s t hi h hst
  rcases step_block_cases hst with ⟨rest, hm⟩ | hsame | ⟨a, rest, -, ha, rfl⟩
  · exact traceFollows_moves (inv_passTime hi rest) h hm
  · exact h.sameBlock hsame
  · rw [resetBlock_legal ha]
    exact ⟨[], rfl⟩

/-! ## What writes the latched request and `UPROG` -/

/-- A turn of the block leaves the latched request and its micro-program, or accepts the oldest word at the port (R119). -/
theorem moves_program {s t : State} (h : Moves s t) :
    (t.uprog = s.uprog ∧ t.reqOp = s.reqOp ∧ t.reqCls = s.reqCls ∧ t.reqByte = s.reqByte) ∨
    (s.phase = .idle ∧ t.phase = .exec ∧ t.upc = 0 ∧ s.held = latchedWord t :: t.held ∧
      t.uprog = expand t.reqOp t.reqCls t.reqByte s.cfg) := by
  cases h with
  | accepts op cls b rest hp hh => exact .inr ⟨hp, rfl, rfl, hh, rfl⟩
  | _ => exact .inl ⟨rfl, rfl, rfl, rfl⟩

theorem SameBlock.program {s t : State} (h : SameBlock s t) :
    t.uprog = s.uprog ∧ t.reqOp = s.reqOp ∧ t.reqCls = s.reqCls ∧ t.reqByte = s.reqByte := by
  rw [← h]
  exact ⟨rfl, rfl, rfl, rfl⟩

/-- Settles O51: of the block's turns only the accept of R119 writes them. -/
theorem programWrittenOnlyAtAccept : Obligations.ProgramWrittenOnlyAtAccept := by
  intro s t hst hno
  rcases step_block_cases hst with ⟨rest, hm⟩ | hsame | ⟨a, rest, hh, _⟩
  · have hp := moves_program hm
    exact hp
  · exact .inl hsame.program
  · exact absurd hh (hno a rest)

/-! ## The reference decoder (R64) -/

/-- What the receiver latches of a nibble: its four bits and the level of `RS`. -/
def nibbleCycle (rs : Level) (n : Nibble) : Cycle :=
  ⟨rs, some (n.getLsbD 3), some (n.getLsbD 2), some (n.getLsbD 1), some (n.getLsbD 0)⟩

/-- The latches a bus cycle of a nibble leaves: its four bits, and `E` low. -/
def afterNibble (q : Pins) (n : Nibble) : Pins :=
  { q with
    d4 := some (n.getLsbD 0), d5 := some (n.getLsbD 1), d6 := some (n.getLsbD 2), d7 := some (n.getLsbD 3),
    e := some false }

/-- The events of the bus cycle of a nibble (R97). -/
def nibbleEvents (t : Timing) (n : Nibble) : List Event :=
  cycleEvents t (n.getLsbD 0) (n.getLsbD 1) (n.getLsbD 2) (n.getLsbD 3)

/-- The latches a transfer leaves. -/
def afterByte (q : Pins) (rs : Bool) (b : Byte) : Pins :=
  afterNibble (afterNibble { q with rs := some rs } (hiNibble b)) (loNibble b)

section
variable (q : Pins) (t : Timing) (es : List Event)

theorem cyclesFrom_wait (d : Nat) : cyclesFrom q (.wait d :: es) = cyclesFrom q es := rfl

theorem spuriousFrom_wait (d : Nat) : spuriousFrom q (.wait d :: es) = spuriousFrom q es := Nat.zero_add _

/-- A bus cycle is latched once, at its one falling edge, whatever the pins were. -/
theorem cyclesFrom_nibble (n : Nibble) :
    cyclesFrom q (nibbleEvents t n ++ es) = nibbleCycle q.rs n :: cyclesFrom (afterNibble q n) es := rfl

/-- The falling edge of a bus cycle comes from a high `E`, so it is no spurious latch (R112). -/
theorem spuriousFrom_nibble (n : Nibble) :
    spuriousFrom q (nibbleEvents t n ++ es) = spuriousFrom (afterNibble q n) es := by
  simp [nibbleEvents, cycleEvents, spuriousFrom, fallsFrom, pinsAfter, setLatch, afterNibble]

/-- A transfer sets `RS`, then runs the bus cycles of its byte, high nibble first, then settles (R98, R102). -/
theorem transferEvents_eq (rs : Bool) (b : Byte) (settle : Nat) :
    transferEvents t rs b settle =
      .set .rs rs :: (nibbleEvents t (hiNibble b) ++ (nibbleEvents t (loNibble b) ++ [.wait settle])) := by
  simp [transferEvents, nibbleEvents, hiNibble, loNibble]

theorem cyclesFrom_transfer (rs : Bool) (b : Byte) (settle : Nat) :
    cyclesFrom q (transferEvents t rs b settle ++ es) =
      nibbleCycle (some rs) (hiNibble b) :: nibbleCycle (some rs) (loNibble b) :: cyclesFrom (afterByte q rs b) es := by
  rw [transferEvents_eq]
  rfl

theorem spuriousFrom_transfer (rs : Bool) (b : Byte) (settle : Nat) :
    spuriousFrom q (transferEvents t rs b settle ++ es) = spuriousFrom (afterByte q rs b) es := by
  simp [transferEvents_eq, spuriousFrom_nibble, spuriousFrom, fallsFrom, pinsAfter, setLatch, afterByte]

end

theorem cycleValue_nibble (rs : Bool) (n : Nibble) : cycleValue (nibbleCycle (some rs) n) = some (rs, n) := by
  have hbits : BitVec.ofBool (n.getLsbD 3) ++ BitVec.ofBool (n.getLsbD 2) ++ BitVec.ofBool (n.getLsbD 1) ++
      BitVec.ofBool (n.getLsbD 0) = n := by
    revert n
    decide
  exact congrArg (fun m => some (rs, m)) hbits

theorem singleFrame_nibble (rs : Bool) (n : Nibble) : singleFrame (nibbleCycle (some rs) n) = .single rs n := by
  simp [singleFrame, cycleValue_nibble]

theorem hiNibble_append_loNibble (b : Byte) : hiNibble b ++ loNibble b = b := by
  refine BitVec.eq_of_getLsbD_eq fun i hi => BitVec.getLsbD_append.trans ?_
  split
  · simp [loNibble, *]
  · have hlt : i - 4 < 4 := by omega
    have hge : 4 + (i - 4) = i := by omega
    simp [hiNibble, hlt, hge]

theorem pairFrame_byte (rs : Bool) (b : Byte) :
    pairFrame (nibbleCycle (some rs) (hiNibble b)) (nibbleCycle (some rs) (loNibble b)) = .byte rs b := by
  simp [pairFrame, cycleValue_nibble, hiNibble_append_loNibble]

/-- Settles O36: the two bus cycles of a transfer are the two halves of one byte frame. -/
theorem transferDecodesToItsFrame : Obligations.TransferDecodesToItsFrame := by
  intro q t rs b settle
  have hcycles := cyclesFrom_transfer q t [] rs b settle
  rw [List.append_nil] at hcycles
  rw [hcycles]
  simp [frames, pairFrames, cyclesFrom, pairFrame_byte]

/-- What INIT drives before its first bus cycle: `E`, `RS` and, with a handle, `RW` low (R109, R111). -/
def initLowEvents (c : Cfg) (t : Timing) : List Event :=
  .set .e false :: .set .rs false :: ((if c.rwp then [.set .rw false] else []) ++ [.wait t.tPowerOn])

/-- The bus cycles of INIT and their settle waits (R109). -/
def initBusEvents (c : Cfg) (t : Timing) : List Event :=
  nibbleEvents t 3 ++ .wait t.tInit1 :: (nibbleEvents t 3 ++ .wait t.tInit2 :: (nibbleEvents t 3 ++ .wait t.tShort ::
    (nibbleEvents t 2 ++ .wait t.tShort :: (transferEvents t false (functionSetByte c) t.tShort ++
      (transferEvents t false 0x08 t.tShort ++ (transferEvents t false 0x01 t.tLong ++
        (transferEvents t false 0x06 t.tShort ++ [])))))))

theorem initEvents_eq (c : Cfg) (t : Timing) : initEvents c t = initLowEvents c t ++ initBusEvents c t := by
  have h3 : cycleEvents t true true false false = nibbleEvents t 3 := rfl
  have h2 : cycleEvents t false true false false = nibbleEvents t 2 := rfl
  simp only [initEvents, initLowEvents, initBusEvents, h3, h2, List.append_assoc, List.cons_append, List.nil_append,
    List.append_nil]

/-- INIT's bus cycles: four single nibbles at the level `RS` has, then the bytes in pairs with `RS` low (R109). -/
theorem cyclesFrom_initBus (q : Pins) (c : Cfg) (t : Timing) :
    cyclesFrom q (initBusEvents c t) =
      nibbleCycle q.rs 3 :: nibbleCycle q.rs 3 :: nibbleCycle q.rs 3 :: nibbleCycle q.rs 2 ::
        [functionSetByte c, 0x08, 0x01, 0x06].flatMap fun b =>
          [nibbleCycle (some false) (hiNibble b), nibbleCycle (some false) (loNibble b)] := by
  simp only [initBusEvents, cyclesFrom_nibble, cyclesFrom_wait, cyclesFrom_transfer]
  rfl

theorem spuriousFrom_initBus (q : Pins) (c : Cfg) (t : Timing) : spuriousFrom q (initBusEvents c t) = 0 := by
  simp only [initBusEvents, spuriousFrom_nibble, spuriousFrom_wait, spuriousFrom_transfer]
  rfl

/-- The latches when INIT's first bus cycle starts. -/
def afterInitLow (q : Pins) (c : Cfg) : Pins :=
  { q with e := some false, rs := some false, rw := if c.rwp then some false else q.rw }

/-- From `E` not high, driving `E` low is no falling edge (R111, R64). -/
theorem cyclesFrom_initLow {q : Pins} (he : q.e ≠ some true) (c : Cfg) (t : Timing) (es : List Event) :
    cyclesFrom q (initLowEvents c t ++ es) = cyclesFrom (afterInitLow q c) es := by
  cases hc : c.rwp <;>
    simp [initLowEvents, afterInitLow, hc, he, cyclesFrom, fallsFrom, pinsAfter, setLatch]

/-- INIT's first micro-op is a possible spurious latch exactly when `E` was never driven (R112). -/
theorem spuriousFrom_initLow (q : Pins) (c : Cfg) (t : Timing) (es : List Event) :
    spuriousFrom q (initLowEvents c t ++ es) = (if q.e = none then 1 else 0) + spuriousFrom (afterInitLow q c) es := by
  cases hc : c.rwp <;>
    simp [initLowEvents, afterInitLow, hc, spuriousFrom, fallsFrom, pinsAfter, setLatch]

/-- Settles O37: the four single nibbles, then the pairs of the four bytes; only the first `Set(E, 0)` can be spurious. -/
theorem initDecodesToItsFrames : Obligations.InitDecodesToItsFrames := by
  intro q c t he
  rw [initEvents_eq, cyclesFrom_initLow he, spuriousFrom_initLow, cyclesFrom_initBus, spuriousFrom_initBus]
  have hrs : (afterInitLow q c).rs = some false := rfl
  refine ⟨?_, rfl⟩
  simp [hrs, frames, pairFrames, singleFrame_nibble, pairFrame_byte]

end Sys2Proof.Machine
end

section
/-!
PROOFS. The family 30_encoding.md: the two word formats and their decoders, the well-formed micro-programs, and the
requests of the pseudo-instructions.
-/

namespace Sys2Proof.Machine

/-! ## Encoding and decoding -/

theorem encode_setpin (p : Pin) (v : Bool) : encode (setpin p v) = .uop (setpinWord p v) := by
  cases p <;> rfl

theorem decode_encode_setpin (p : Pin) (v : Bool) : decode (encode (setpin p v)) = .instr (setpin p v) := by
  rw [encode_setpin]
  exact decodeUop_setpinWord p v

/-- Settles O2: each instruction's word is put together by the builder of its format, whose fields decode to it. -/
theorem decodeOfEncodeIsSame : Obligations.DecodeOfEncodeIsSame := by
  intro i
  cases i with
  | cmd c b => exact decodeReq_cmdWord c b
  | data b => exact decodeReq_dataWord b
  | init => exact decodeReq_initWord
  | setpinD4 v => exact decode_encode_setpin .d4 v
  | setpinD5 v => exact decode_encode_setpin .d5 v
  | setpinD6 v => exact decode_encode_setpin .d6 v
  | setpinD7 v => exact decode_encode_setpin .d7 v
  | setpinRS v => exact decode_encode_setpin .rs v
  | setpinE v => exact decode_encode_setpin .e v
  | setpinRW v => exact decode_encode_setpin .rw v
  | wait n => exact decodeUop_waitWord n
  | endOp => exact decodeUop_endWord
  | setrdy => exact decodeUop_setrdyWord
  | clrrdy => exact decodeUop_clrrdyWord

/-- Settles O3: a word that decodes has one of the shapes the encoder builds, in either format. -/
theorem encodeOfDecodeIsSame : Obligations.EncodeOfDecodeIsSame := by
  intro w i h
  cases w with
  | req w => rcases decodeReq_instr h with ⟨c, b, rfl, rfl⟩ | ⟨b, rfl, rfl⟩ | ⟨rfl, rfl⟩ <;> rfl
  | uop u =>
    cases decodeUop_instr h with
    | setpin p v => exact encode_setpin p v
    | wait n => rfl
    | endOp => rfl
    | setrdy => rfl
    | clrrdy => rfl

/-- Settles O1: the twelve words evaluate. -/
theorem knownWordsDecode : Obligations.KnownWordsDecode := by
  unfold Obligations.KnownWordsDecode
  decide

/-! ## The decoding tables -/

/-- With no environment move, a step in IDLE rejects an illegal word that is the oldest at the port (R71, R120). -/
theorem step_illegal {s : State} {w : ReqWord} {rest : List ReqWord} {why : DecodeError} (hh : s.host = [])
    (hp : s.phase = .idle) (hw : s.held = w :: rest) (hd : decodeReq w = .bad why) :
    step s = .next (reject w .illegalRequest { passTime s with held := rest }) := by
  unfold step turn
  simp only [passTime_host, hh, blockTurn, passTime_phase, hp, portTurn, passTime_held, hw, hd]

/-- A word that decodes to no instruction is refused by name (R72). -/
theorem decodeUop_bad {u : UopWord} (h : ∀ i, decodeUop u ≠ .instr i) : ∃ why, decodeUop u = .bad why := by
  cases hd : decodeUop u with
  | bad why => exact ⟨why, rfl⟩
  | instr i => exact absurd hd (h i)

/-- Settles O4: the lines of the table are the branches of `decodeReq`; the port rejects what it refuses. -/
theorem requestDecodingTable : Obligations.RequestDecodingTable := by
  refine ⟨fun w => ⟨?_, ?_, ?_, ?_, ?_, ?_, ?_⟩, ?_⟩
  · intro hrsv
    exact ⟨.reservedReqBit, by simp [-BitVec.getLsbD_eq_getElem, decodeReq, hrsv]⟩
  · intro hrsv hop
    simp [-BitVec.getLsbD_eq_getElem, decodeReq, hrsv, hop, classOfBit]
  · intro hrsv hop hcls
    simp [-BitVec.getLsbD_eq_getElem, decodeReq, hrsv, hop, hcls]
  · intro hrsv hop hcls hbyte
    simp [-BitVec.getLsbD_eq_getElem, decodeReq, hrsv, hop, hcls, hbyte]
  · intro hrsv hop hcls
    exact ⟨.classOnData, by simp [-BitVec.getLsbD_eq_getElem, decodeReq, hrsv, hop, hcls]⟩
  · rintro hrsv hop (hcls | hbyte)
    · exact ⟨.classOnInit, by simp [-BitVec.getLsbD_eq_getElem, decodeReq, hrsv, hop, hcls]⟩
    · cases hcls : w.getLsbD 8 with
      | true => exact ⟨.classOnInit, by simp [-BitVec.getLsbD_eq_getElem, decodeReq, hrsv, hop, hcls]⟩
      | false => exact ⟨.byteOnInit, by simp [-BitVec.getLsbD_eq_getElem, decodeReq, hrsv, hop, hcls, hbyte]⟩
  · intro hrsv hop
    exact ⟨.reservedOp, by simp [-BitVec.getLsbD_eq_getElem, decodeReq, hrsv, hop]⟩
  · intro w why rest s hd hh hp hw
    exact ⟨_, step_illegal hh hp hw hd, rfl, rfl⟩

theorem pinOfCode_code (p : Pin) : pinOfCode p.code = some p := by
  cases p <;> rfl

theorem timeOfCode_code (n : TimeName) : timeOfCode n.code = n := by
  cases n <;> rfl

/-- A micro-op word with a reserved field (R72). -/
def ReservedUop (u : UopWord) : Prop :=
  (u.extractLsb' 6 2 = 0 ∧ (u.extractLsb' 3 3 = 7 ∨ u.extractLsb' 1 2 ≠ 0)) ∨
    (u.extractLsb' 6 2 = 1 ∧ u.extractLsb' 3 3 ≠ 0) ∨
    (u.extractLsb' 6 2 = 2 ∧ u ≠ 0x80 ∧ u ≠ 0x81 ∧ u ≠ 0x82) ∨ u.extractLsb' 6 2 = 3

/-- The word of an instruction has no reserved field. -/
theorem not_reservedUop_of_shape {u : UopWord} {i : Instr} (h : UopShape u i) : ¬ ReservedUop u := by
  unfold ReservedUop
  cases h with
  | setpin p v => cases p <;> cases v <;> decide
  | wait n => cases n <;> decide
  | endOp => decide
  | setrdy => decide
  | clrrdy => decide

/-- Settles O5: a word without a reserved field is read by its fields; the words that decode have none. -/
theorem microOpDecodingTable : Obligations.MicroOpDecodingTable := by
  refine fun u => ⟨?_, ?_, ?_, ?_, ?_, ?_⟩
  · intro p v hkind hpin hrsv hlvl
    simp only [decodeUop, hkind, hpin, hrsv, hlvl, pinOfCode_code, if_true]
  · intro n hkind hrsv hname
    simp [decodeUop, hkind, hrsv, hname, timeOfCode_code]
  · rintro rfl
    exact decodeUop_endWord
  · rintro rfl
    exact decodeUop_setrdyWord
  · rintro rfl
    exact decodeUop_clrrdyWord
  · intro hreserved
    exact decodeUop_bad fun i hd => not_reservedUop_of_shape (decodeUop_instr hd) hreserved

/-! ## The micro-programs are well formed -/

theorem uopWellFormed_of_decodeUop {c : Cfg} {u : UopWord} {i : Instr} (hd : decodeUop u = .instr i) :
    uopWellFormed c u = i.wellFormed c := by
  simp only [uopWellFormed, hd]

theorem wellFormed_setpin {c : Cfg} {p : Pin} (v : Bool) (h : p = .rw → c.rwp = true) :
    (setpin p v).wellFormed c = true := by
  cases p with
  | rw => exact h rfl
  | d4 | d5 | d6 | d7 | rs | e => rfl

/-- A micro-op of a micro-program's body: one a block of this `CFG` may hold, and not END. -/
def BodyUop (c : Cfg) (u : UopWord) : Prop := uopWellFormed c u = true ∧ u ≠ endWord

theorem BusUop.bodyUop {c : Cfg} {u : UopWord} (h : BusUop c u) : BodyUop c u := by
  refine ⟨?_, busUop_ne_end h⟩
  rcases h with ⟨p, v, rfl, hrw⟩ | ⟨n, rfl⟩
  · rw [uopWellFormed_of_decodeUop (decodeUop_setpinWord p v), wellFormed_setpin v hrw]
  · exact uopWellFormed_of_decodeUop (decodeUop_waitWord n)

/-- A body with an END behind it is a well-formed micro-program (R26, R27, R72, R94). -/
theorem microProgramWellFormed_append_end {c : Cfg} {body : List UopWord} (hlen : (body ++ [endWord]).length ≤ 127)
    (hbody : ∀ u ∈ body, BodyUop c u) : microProgramWellFormed c (body ++ [endWord]) = true := by
  have hall : ∀ u ∈ body, uopWellFormed c u = true := fun u hu => (hbody u hu).1
  have hend : ∀ u ∈ body, u ≠ endWord := fun u hu => (hbody u hu).2
  have hlast : uopWellFormed c endWord = true := uopWellFormed_of_decodeUop decodeUop_endWord
  simpa [microProgramWellFormed, Config.maxMicroOps, hlast] using ⟨⟨by simpa using hlen, hall⟩, hend⟩

/-- Every micro-program is a body and its END (R94, R103, R104, R109). -/
theorem expand_eq_body_end (op : ReqOp) (cls : DelayClass) (b : Byte) (c : Cfg) :
    ∃ body, expand op cls b c = body ++ [endWord] ∧ ∀ u ∈ body, BodyUop c u := by
  cases op with
  | cmd => exact ⟨_, expandCmd_eq cls b, fun u hu => (transferBody_busUop c _ _ _ u hu).bodyUop⟩
  | data => exact ⟨_, expandData_eq b, fun u hu => (transferBody_busUop c _ _ _ u hu).bodyUop⟩
  | init =>
    refine ⟨clrrdyWord :: (initBody c ++ [setrdyWord]), by simp [expand, expandInit_eq], fun u hu => ?_⟩
    simp only [List.mem_cons, List.mem_append, List.not_mem_nil, or_false] at hu
    rcases hu with rfl | hu | rfl
    · exact ⟨rfl, by decide⟩
    · exact (initBody_busUop c u hu).bodyUop
    · exact ⟨rfl, by decide⟩

/-- Settles O34: every expansion is a body without END and the END, within the longest length. -/
theorem expansionsAreWellFormed : Obligations.ExpansionsAreWellFormed := by
  intro op cls b c
  have hlen := expand_length_le op cls b c
  obtain ⟨body, heq, hbody⟩ := expand_eq_body_end op cls b c
  rw [heq] at hlen ⊢
  exact microProgramWellFormed_append_end hlen hbody

/-! ## The requests of the pseudo-instructions -/

/-- An operand below a set bit of a byte is added to it. -/
theorem toNat_twoPow_or_setWidth {k : Nat} (hk : k < 8) (a : BitVec k) :
    (BitVec.twoPow 8 k ||| a.setWidth 8).toNat = 2 ^ k + a.toNat := by
  have hpow : 2 ^ k < 2 ^ 8 := Nat.pow_lt_pow_right (by omega) hk
  have ha : a.toNat < 2 ^ 8 := a.isLt.trans hpow
  rw [BitVec.toNat_or, BitVec.toNat_twoPow, BitVec.toNat_setWidth, Nat.mod_eq_of_lt ha, Nat.mod_eq_of_lt hpow]
  simpa using (Nat.two_pow_add_eq_or_of_lt a.isLt 1).symm

/-- The byte of `set_cgram a` (R84). -/
theorem setCgram_toNat (a : BitVec 6) : (0x40 ||| a.setWidth 8 : Byte).toNat = 64 + a.toNat :=
  toNat_twoPow_or_setWidth (by omega) a

/-- The byte of `set_ddram a` (R85). -/
theorem setDdram_toNat (a : BitVec 7) : (0x80 ||| a.setWidth 8 : Byte).toNat = 128 + a.toNat :=
  toNat_twoPow_or_setWidth (by omega) a

/-- `p` expands to one CMD of class SHORT, whose byte is the number `n`. -/
def ExpandsToShort (p : Pseudo) (n : Nat) : Prop :=
  ∃ b : Byte, expandPseudo p = [.cmd .short b] ∧ b.toNat = n

section
variable (x y z : Bool)

theorem expandsToShort_entryMode : ExpandsToShort (.entryMode x y) (4 + 2 * x.toNat + y.toNat) :=
  ⟨_, rfl, by cases x <;> cases y <;> rfl⟩

theorem expandsToShort_displayCtl : ExpandsToShort (.displayCtl x y z) (8 + 4 * x.toNat + 2 * y.toNat + z.toNat) :=
  ⟨_, rfl, by cases x <;> cases y <;> cases z <;> rfl⟩

theorem expandsToShort_shift : ExpandsToShort (.shift x y) (16 + 8 * x.toNat + 4 * y.toNat) :=
  ⟨_, rfl, by cases x <;> cases y <;> rfl⟩

theorem expandsToShort_functionSet : ExpandsToShort (.functionSet x y) (32 + 8 * x.toNat + 4 * y.toNat) :=
  ⟨_, rfl, by cases x <;> cases y <;> rfl⟩

end

theorem expandsToShort_setCgram (a : BitVec 6) : ExpandsToShort (.setCgram a) (64 + a.toNat) :=
  ⟨_, rfl, setCgram_toNat a⟩

theorem expandsToShort_setDdram (a : BitVec 7) : ExpandsToShort (.setDdram a) (128 + a.toNat) :=
  ⟨_, rfl, setDdram_toNat a⟩

theorem expandsToShort_cursor (pos : CursorPos) : ExpandsToShort (.cursor pos) (128 + (cursorAddress pos).toNat) :=
  ⟨_, rfl, setDdram_toNat _⟩

theorem cursorAddress_row0 (c : BitVec 7) : (cursorAddress (.row0 c)).toNat = c.toNat := by
  simp [cursorAddress]

theorem cursorAddress_row1 (c : BitVec 6) : (cursorAddress (.row1 c)).toNat = 64 + c.toNat := by
  have hc := c.isLt
  have hbase : (0x40 : BitVec 7).toNat = 64 := rfl
  rw [cursorAddress, BitVec.toNat_add, BitVec.toNat_setWidth, hbase]
  omega

/-- The requests a pseudo-instruction `p` may expand to: a CMD is LONG for clear and home alone, and the byte of a SHORT
one is neither of theirs (R78, R79, R145). -/
inductive PseudoRequest (p : Pseudo) : Instr → Prop where
  | data (b : Byte) : PseudoRequest p (.data b)
  | long (b : Byte) (hp : p = .clear ∨ p = .home) : PseudoRequest p (.cmd .long b)
  | short (b : Byte) (hp : ¬ (p = .clear ∨ p = .home)) (hb : 2 < b.toNat) : PseudoRequest p (.cmd .short b)

/-- The bytes that need the long settle delay are the numbers 1 and 2. -/
theorem needsLong_eq_false {b : Byte} (h : 2 < b.toNat) : needsLong b = false := by
  have h1 : b ≠ 0x01 := by rintro rfl; exact absurd h (by decide)
  have h2 : b ≠ 0x02 := by rintro rfl; exact absurd h (by decide)
  exact Bool.or_eq_false_iff.mpr ⟨beq_false_of_ne h1, beq_false_of_ne h2⟩

theorem PseudoRequest.no_hazard {p : Pseudo} {i : Instr} (h : PseudoRequest p i) :
    classHazard i = false ∧ i.isRequest = true := by
  cases h with
  | data b => exact ⟨rfl, rfl⟩
  | long b hp => exact ⟨rfl, rfl⟩
  | short b hp hb => exact ⟨needsLong_eq_false hb, rfl⟩

theorem PseudoRequest.long_iff {p : Pseudo} {c : DelayClass} {b : Byte} (h : PseudoRequest p (.cmd c b)) :
    c = .long ↔ p = .clear ∨ p = .home := by
  cases h with
  | long _ hp => exact iff_of_true rfl hp
  | short _ hp _ => exact iff_of_false (by decide) hp

theorem ExpandsToShort.request {p : Pseudo} {n : Nat} (h : ExpandsToShort p n) (hp : ¬ (p = .clear ∨ p = .home))
    (hn : 2 < n) {i : Instr} (hi : i ∈ expandPseudo p) : PseudoRequest p i := by
  obtain ⟨b, heq, hb⟩ := h
  rw [heq, List.mem_singleton] at hi
  subst hi
  exact .short b hp (by omega)

/-- Every request of every pseudo-instruction (R78 to R89). -/
theorem expandPseudo_request {p : Pseudo} {i : Instr} (hi : i ∈ expandPseudo p) : PseudoRequest p i := by
  cases p with
  | clear => rw [List.mem_singleton.mp hi]; exact .long _ (.inl rfl)
  | home => rw [List.mem_singleton.mp hi]; exact .long _ (.inr rfl)
  | entryMode x y => exact (expandsToShort_entryMode x y).request (by simp) (by omega) hi
  | displayCtl x y z => exact (expandsToShort_displayCtl x y z).request (by simp) (by omega) hi
  | shift x y => exact (expandsToShort_shift x y).request (by simp) (by omega) hi
  | functionSet x y => exact (expandsToShort_functionSet x y).request (by simp) (by omega) hi
  | setCgram a => exact (expandsToShort_setCgram a).request (by simp) (by omega) hi
  | setDdram a => exact (expandsToShort_setDdram a).request (by simp) (by omega) hi
  | cursor pos => exact (expandsToShort_cursor pos).request (by simp) (by omega) hi
  | putc c => rw [List.mem_singleton.mp hi]; exact .data c
  | puts cs =>
    obtain ⟨c, _, rfl⟩ := List.mem_map.mp hi
    exact .data c
  | glyph g rows back =>
    simp only [expandPseudo, List.mem_append, List.mem_cons, List.mem_map, List.not_mem_nil, or_false] at hi
    rcases hi with (rfl | ⟨row, _, rfl⟩) | rfl
    · exact .short _ (by simp) (by rw [setCgram_toNat]; omega)
    · exact .data _
    · exact .short _ (by simp) (by rw [setDdram_toNat]; omega)

/-- Settles O58: each expansion is a list of requests of its class, with the byte of its rule. -/
theorem pseudoInstructionsCarryTheirClass : Obligations.PseudoInstructionsCarryTheirClass := by
  refine ⟨fun p i hi => (expandPseudo_request hi).no_hazard, fun p c b hi => (expandPseudo_request hi).long_iff, rfl, rfl,
    expandsToShort_entryMode, expandsToShort_displayCtl, expandsToShort_shift, expandsToShort_functionSet,
    expandsToShort_setCgram, expandsToShort_setDdram, ?_, ?_, fun _ => rfl, ?_⟩
  · intro c
    rw [← cursorAddress_row0 c]
    exact expandsToShort_cursor (.row0 c)
  · intro c
    rw [Nat.add_assoc, ← cursorAddress_row1 c]
    exact expandsToShort_cursor (.row1 c)
  · exact fun cs => ⟨List.length_map _, fun k => List.getElem?_map⟩

/-! ## Glyph definitions -/

/-- The request of one row of a glyph, five bits wide (R89). -/
def glyphRow (row : Byte) : Instr := .data (row &&& 0x1F)

theorem expandPseudo_glyph (i : BitVec 3) (rows : Vector Byte 8) (back : BitVec 7) :
    expandPseudo (.glyph i rows back) =
      setCgramReq (i ++ 0#3) :: (rows.toList.map glyphRow ++ [setDdramReq back]) := rfl

/-- The CGRAM address of a glyph is `i << 3` (R89). -/
theorem glyphAddress_toNat (i : BitVec 3) : (i ++ 0#3).toNat = 8 * i.toNat := by
  rw [BitVec.toNat_append]
  simp [Nat.shiftLeft_eq, Nat.mul_comm]

theorem glyphRow_toNat (row : Byte) : (row &&& 0x1F : Byte).toNat = row.toNat % 32 := by
  rw [BitVec.toNat_and]
  exact Nat.and_two_pow_sub_one_eq_mod row.toNat 5

/-- A byte with bit 7 set points the address counter to DDRAM (R85). -/
theorem addressingAfter_setDdramReq (m : Addressing) (a : BitVec 7) : addressingAfter m (setDdramReq a) = .ddram := by
  have hbit : (0x80 ||| a.setWidth 8 : Byte).getLsbD 7 = true := by simp
  simp only [setDdramReq, addressingAfter, hbit, if_true]

/-- Settles O59: the ten requests by place; the last one decides where the address counter points. -/
theorem glyphRestoresTheAddress : Obligations.GlyphRestoresTheAddress := by
  intro i rows back
  rw [expandPseudo_glyph]
  have hlen : (rows.toList.map glyphRow).length = 8 := by simp
  refine ⟨by simp, ⟨_, rfl, ?_⟩, fun k hk => ⟨_, ?_, glyphRow_toNat rows[k]⟩, ⟨_, ?_, setDdram_toNat back⟩, fun m => ?_⟩
  · rw [setCgram_toNat, glyphAddress_toNat]
  · rw [List.getElem?_cons_succ, List.getElem?_append_left (by omega)]
    simp [hk, glyphRow]
  · rw [List.getElem?_cons_succ, List.getElem?_append_right (by omega), hlen]
    rfl
  · rw [List.foldl_cons, List.foldl_append]
    exact addressingAfter_setDdramReq _ back

end Sys2Proof.Machine
end

section
/-!
PROOFS. The family 40_bus_cycle.md: the micro-ops and the delay, the words of the micro-programs, the times of a bus cycle,
the level of `E`, and that no latch is ever read.
-/

namespace Sys2Proof.Machine

/-! ## The micro-ops -/

/-- Settles O10: SETPIN drives its pin, and the handle rules the fault of `RW` out. -/
theorem setpinDrivesItsPin : Obligations.SetpinDrivesItsPin := by
  intro p v s hr
  refine ⟨driven p v s, ?_, latch_setLatch_same s.pins p v, rfl, rfl, rfl⟩
  rw [exec_setpin, drivePin_next p v s hr]

/-- Settles O11: what SETPIN leaves is `driven`, which writes one latch, the trace and `UPC`. -/
theorem setpinFrame : Obligations.SetpinFrame := by
  intro p v s t h
  rw [exec_setpin] at h
  obtain ⟨-, rfl⟩ := drivePin_cases h
  exact ⟨fun r hr => latch_setLatch_other s.pins v hr, rfl⟩

/-- Settles O12: WAIT is `startDelay` of its duration. -/
theorem waitStartsDelay : Obligations.WaitStartsDelay := fun _ _ => rfl

/-- Only the END of INIT aligns the far end (R61, R62). -/
theorem farSyncAtEnd_eq (op : ReqOp) (f : FarSync) : farSyncAtEnd op f = if op = .init then .aligned else f := by
  cases op <;> rfl

/-- Settles O16: END is `finish`. -/
theorem endFinishesTheRequest : Obligations.EndFinishesTheRequest := by
  intro s
  rw [← farSyncAtEnd_eq]
  rfl

/-- Settles O17: SETRDY and CLRRDY write the flag, then advance. -/
theorem readyMicroOps : Obligations.ReadyMicroOps := fun _ => ⟨rfl, rfl⟩

/-! ## A step of the sequencer -/

/-- With no environment move the block has its turn (assumption 6). -/
theorem step_alone {s : State} (hh : s.host = []) : step s = blockTurn (passTime s) := by
  unfold step turn
  simp only [passTime_host, hh]

/-- A script entry `run` gives the block its turn (assumption 6). -/
theorem step_run {s : State} {rest : List HostMove} (hh : s.host = .run :: rest) :
    step s = blockTurn { passTime s with host := rest } := by
  unfold step turn
  simp only [passTime_host, hh]

/-- A step at which only time passes (R55, R137). -/
theorem step_elapse {s : State} {rest : List HostMove} (hh : s.host = .elapse :: rest) :
    step s = .next { passTime s with host := rest } := by
  unfold step turn
  simp only [passTime_host, hh]

/-- A step at which the client submits a word (R121, R137). -/
theorem step_submit {s : State} {w : ReqWord} {rest : List HostMove} (hh : s.host = .submit w :: rest) :
    step s = .next (hold w { passTime s with host := rest }) := by
  unfold step turn
  simp only [passTime_host, hh]

/-- While the delay capability does not return, a step only passes time (R93, assumption 6). -/
theorem step_hung {s : State} {rest : List HostMove} (hp : s.phase = .delay) (hh : s.host = .neverReturns :: rest) :
    step s = .next (passTime s) := by
  unfold step turn
  simp only [passTime_host, hh, passTime_phase, hp, if_true]

/-- With no delay outstanding, one that would never return leaves the block its turn (assumption 6). -/
theorem step_neverReturns {s : State} {rest : List HostMove} (hp : s.phase ≠ .delay)
    (hh : s.host = .neverReturns :: rest) : step s = blockTurn (passTime s) := by
  unfold step turn
  simp only [passTime_host, hh, passTime_phase, hp, if_false]

section
variable {s : State}

theorem blockTurn_idle (hp : s.phase = .idle) : blockTurn s = portTurn s := by
  unfold blockTurn
  rw [hp]

theorem blockTurn_exec (hp : s.phase = .exec) : blockTurn s = fetchTurn s := by
  unfold blockTurn
  rw [hp]

theorem blockTurn_delay (hp : s.phase = .delay) : blockTurn s = .next (returnDelay s) := by
  unfold blockTurn
  rw [hp]

theorem portTurn_empty (hh : s.held = []) : portTurn s = .next s := by
  unfold portTurn
  rw [hh]

theorem portTurn_illegal {w : ReqWord} {rest : List ReqWord} {why : DecodeError} (hh : s.held = w :: rest)
    (hd : decodeReq w = .bad why) : portTurn s = .next (reject w .illegalRequest { s with held := rest }) := by
  simp only [portTurn, hh, hd]

theorem portTurn_instr {w : ReqWord} {rest : List ReqWord} {i : Instr} (hh : s.held = w :: rest)
    (hd : decodeReq w = .instr i) : portTurn s = exec i { s with held := rest } := by
  simp only [portTurn, hh, hd]

end

/-- Settles O27: the block's turn in EXEC runs the micro-op at `UPC`. -/
theorem stepRunsFetchedMicroOp : Obligations.StepRunsFetchedMicroOp := by
  intro s u i hp hu hd
  refine ⟨fun hh => step_exec hh hp hu hd, fun rest hh => ?_⟩
  rw [step_run hh, blockTurn_exec (s := { passTime s with host := rest }) hp]
  exact fetchTurn_instr hu hd

/-- Settles O14: the step is the delay's return, after time has passed. -/
theorem delayReturnsNoEarlier : Obligations.DelayReturnsNoEarlier := by
  intro s hp hh
  have hback : s.now ≤ (passTime s).now := Nat.le_add_right _ _
  exact ⟨_, step_delay hh hp, rfl, rfl, le_max_right _ _, hback.trans (le_max_left _ _), rfl⟩

/-- Settles O15, by induction on the number of steps: each only passes time, and the script stays at its entry. -/
theorem hungDelayNeverCompletes : Obligations.HungDelayNeverCompletes := by
  intro k
  induction k with
  | zero => exact fun s _ hp _ => ⟨s, rfl, hp, rfl⟩
  | succ k ih =>
    intro s rest hp hh
    obtain ⟨t, hrun, ht, hsame⟩ := ih (passTime s) rest hp hh
    refine ⟨t, ?_, ht, ?_⟩
    · rw [run, step_hung hp hh]
      exact hrun
    · exact congrArg (fun r : State => { r with now := s.now, tick := s.tick }) hsame

/-! ## The words of the micro-programs -/

/-- Settles O30: the builders of the nine words compute to R97's table. -/
theorem nibbleProgramWords : Obligations.NibbleProgramWords := fun _ => rfl

/-- Settles O31: a transfer is `RS`, the two nibbles, the settle wait and END. -/
theorem transferProgramWords : Obligations.TransferProgramWords :=
  fun _ => ⟨rfl, rfl, rfl, fun _ => rfl, rfl⟩

theorem expandInit_first (c : Cfg) : (expandInit c)[0]? = some clrrdyWord := by
  rw [expandInit_eq]
  rfl

theorem expandInit_nextToLast {c : Cfg} {k : Nat} (hk : k + 2 = (expandInit c).length) :
    (expandInit c)[k]? = some setrdyWord := by
  have hplace : k = (initBody c).length + 1 := by
    simp only [expandInit_eq, List.length_cons, List.length_append, List.length_nil] at hk
    omega
  rw [expandInit_eq, hplace]
  simp

/-- Settles O18: a word's place in a micro-program (`expand_word`) tells SETRDY and CLRRDY from the others. -/
theorem onlyInitHoldsReadyMicroOps : Obligations.OnlyInitHoldsReadyMicroOps := by
  intro op cls b c k
  refine ⟨⟨fun h => ?_, ?_⟩, ⟨fun h => ?_, ?_⟩⟩
  · rcases expand_word h with ⟨hb, _⟩ | ⟨hw, _⟩ | ⟨_, hw, _⟩ | ⟨ho, _, hk⟩
    · exact absurd rfl (busUop_ne_setrdy hb)
    · exact absurd hw (by decide)
    · exact absurd hw (by decide)
    · exact ⟨ho, hk⟩
  · rintro ⟨rfl, hk⟩
    exact expandInit_nextToLast hk
  · rcases expand_word h with ⟨hb, _⟩ | ⟨hw, _⟩ | ⟨ho, _, hk⟩ | ⟨_, hw, _⟩
    · exact absurd rfl (busUop_ne_clrrdy hb)
    · exact absurd hw (by decide)
    · exact ⟨ho, hk⟩
    · exact absurd hw (by decide)
  · rintro ⟨rfl, rfl⟩
    exact expandInit_first c

/-! ## The times of a bus cycle (R99) -/

/-- In a timed list an event at a later place is not due before the earlier one allows (R55). -/
theorem Timed.due_le {l : List Stamped} {i j : Nat} {x y : Stamped} (h : Timed l) (hx : l[i]? = some x)
    (hy : l[j]? = some y) (hij : i < j) : due x ≤ y.time := by
  obtain ⟨hi, rfl⟩ := List.getElem?_eq_some_iff.mp hx
  obtain ⟨hj, rfl⟩ := List.getElem?_eq_some_iff.mp hy
  exact List.pairwise_iff_getElem.mp h i j hi hj hij

/-- What a WAIT in a timed list does: everything up to it is its duration apart from everything after it. -/
theorem Timed.wait_between {l : List Stamped} {es : List Event} {i k d : Nat} {x y : Stamped} (h : Timed l)
    (hes : l.map (·.event) = es) (j : Nat) (hj : es[j]? = some (.wait d)) (hx : l[i]? = some x) (hy : l[k]? = some y)
    (hij : i ≤ j) (hjk : j < k) : x.time + d ≤ y.time := by
  subst hes
  obtain ⟨w, hw, hwe⟩ : ∃ w, l[j]? = some w ∧ w.event = .wait d := by simpa using hj
  have hwy : w.time + d ≤ y.time := by
    have hdue := h.due_le hw hy hjk
    rwa [due, hwe] at hdue
  rcases hij.eq_or_lt with rfl | hlt
  · rw [hw, Option.some.injEq] at hx
    rwa [← hx]
  · have hxw : x.time ≤ w.time := (Nat.le_add_right _ _).trans (h.due_le hx hw hlt)
    omega

theorem event_at {l : List Stamped} {es : List Event} {i : Nat} {x : Stamped} {e : Event}
    (hes : l.map (·.event) = es) (hx : l[i]? = some x) (he : es[i]? = some e) : x.event = e := by
  simpa [← hes, hx] using he

/-- Items 1 to 3 of R99: the WAITs of a bus cycle are at its places 4, 6 and 8. -/
theorem cycle_times {t : Timing} {b0 b1 b2 b3 : Bool} {e0 e1 e2 e3 w0 rise w1 fall w2 after : Stamped}
    (hes : [e0, e1, e2, e3, w0, rise, w1, fall, w2].map (·.event) = cycleEvents t b0 b1 b2 b3)
    (h : Timed [e0, e1, e2, e3, w0, rise, w1, fall, w2, after]) :
    e0.time + t.tSetup ≤ rise.time ∧ e1.time + t.tSetup ≤ rise.time ∧ e2.time + t.tSetup ≤ rise.time ∧
    e3.time + t.tSetup ≤ rise.time ∧ rise.time + t.tPw ≤ fall.time ∧ fall.time + t.tHold ≤ after.time := by
  have hall : [e0, e1, e2, e3, w0, rise, w1, fall, w2, after].map (·.event) =
      cycleEvents t b0 b1 b2 b3 ++ [after.event] := by
    rw [← hes]
    rfl
  have hset {i : Nat} {x : Stamped} (hx : [e0, e1, e2, e3, w0, rise, w1, fall, w2, after][i]? = some x) (hi : i ≤ 4) :
      x.time + t.tSetup ≤ rise.time := h.wait_between hall 4 rfl hx (k := 5) rfl hi (by decide)
  exact ⟨hset (i := 0) rfl (by decide), hset (i := 1) rfl (by decide), hset (i := 2) rfl (by decide),
    hset (i := 3) rfl (by decide), h.wait_between hall (i := 5) 6 rfl rfl (k := 7) rfl (by decide) (by decide),
    h.wait_between hall (i := 7) 8 rfl rfl (k := 9) rfl (by decide) (by decide)⟩

/-- Settles O38: each time of R99 is one WAIT of the list, or a chain of such, between the events it relates. -/
theorem busCycleMeetsItsTimes : Obligations.BusCycleMeetsItsTimes := by
  refine ⟨fun t b0 b1 b2 b3 e0 e1 e2 e3 w0 rise w1 fall w2 after hes h => cycle_times hes h, ?_⟩
  intro t rs b settle k l later reg rise1 rise2 fall2 next hes h h0 h6 h15 h17 hk hnext
  have hlater : ∀ j, (transferEvents t rs b settle ++ later)[20 + j]? = later[j]? := fun j => by
    rw [List.getElem?_append_right (Nat.le_add_right 20 j)]
    exact congrArg (later[·]?) (Nat.add_sub_cancel_left 20 j)
  have hlen : 20 + k + 1 < l.length := (List.getElem?_eq_some_iff.mp hnext).1
  have hat : ∀ i, (hi : i ≤ 20 + k) → l[i]? = some (l[i]'(by omega)) := fun i hi => List.getElem?_eq_getElem (by omega)
  have h8 := hat 8 (by omega)
  have h10 := hat 10 (by omega)
  have h19 := hat 19 (by omega)
  have hsettled := hat (20 + k) le_rfl
  have hpulse := h.wait_between hes 7 rfl h6 h8 (by decide) (by decide)
  have hhold := h.wait_between hes 9 rfl h8 h10 (by decide) (by decide)
  have hsetup := h.wait_between hes 14 rfl h10 h15 (by decide) (by decide)
  have hlastHold := h.wait_between hes 18 rfl h17 h19 (by decide) (by decide)
  have hsettle := h.wait_between hes 19 rfl h19 hsettled le_rfl (by omega)
  have hnextSetup := h.wait_between hes (20 + k) ((hlater k).trans hk) hsettled hnext le_rfl (by omega)
  refine ⟨event_at hes h0 rfl, event_at hes h6 rfl, event_at hes h15 rfl, event_at hes h17 rfl,
    h.wait_between hes 5 rfl h0 h6 (by decide) (by decide), h.wait_between hes 5 rfl h0 h15 (by decide) (by decide),
    by omega, fun x hx => ?_, by omega⟩
  obtain ⟨j, hj⟩ := List.mem_iff_getElem?.mp hx
  rw [List.getElem?_drop] at hj
  exact h.wait_between hes 18 rfl h17 hj (by decide) (by omega)

/-! ## The level of `E` (R94) -/

/-- What one micro-op word does to the level `enableAfter` follows. -/
def enableStep (v : Level) (u : UopWord) : Level :=
  if u = setpinWord .e true then some true else if u = setpinWord .e false then some false else v

/-- A word that is no SETPIN of `E`. -/
def LeavesEnable (u : UopWord) : Prop := ∀ v, u ≠ setpinWord .e v

theorem enableAfter_concat (us : List UopWord) (u : UopWord) :
    enableAfter (us ++ [u]) = enableStep (enableAfter us) u := List.foldl_concat ..

theorem enableStep_setpin (l : Level) (v : Bool) : enableStep l (setpinWord .e v) = some v := by
  cases v <;> rfl

theorem enableStep_other {u : UopWord} (h : LeavesEnable u) (l : Level) : enableStep l u = l := by
  simp [enableStep, h true, h false]

theorem waitWord_leavesEnable (n : TimeName) : LeavesEnable (waitWord n) := fun v h => setpinWord_ne_wait .e v n h.symm

theorem setpinWord_leavesEnable {p : Pin} (hp : p ≠ .e) (v : Bool) : LeavesEnable (setpinWord p v) :=
  fun _ h => hp (setpinWord_inj h).1

theorem endWord_leavesEnable : LeavesEnable endWord := fun v h => setpinWord_ne_end .e v h.symm

theorem setrdyWord_leavesEnable : LeavesEnable setrdyWord := fun v h => setpinWord_ne_setrdy .e v h.symm

theorem clrrdyWord_leavesEnable : LeavesEnable clrrdyWord := fun v h => setpinWord_ne_clrrdy .e v h.symm

theorem enableAfter_append_other (us : List UopWord) {u : UopWord} (h : LeavesEnable u) :
    enableAfter (us ++ [u]) = enableAfter us := by
  rw [enableAfter_concat, enableStep_other h]

/-- A bus cycle leaves `E` low (R97). -/
theorem enableAfter_nibbleProg (us : List UopWord) (n : Nibble) : enableAfter (us ++ nibbleProg n) = some false := by
  have hsplit : nibbleProg n = (nibbleProg n).take 7 ++ [setpinWord .e false] ++ [waitWord .hold] := rfl
  rw [hsplit, ← List.append_assoc, ← List.append_assoc, enableAfter_append_other _ (waitWord_leavesEnable _),
    enableAfter_concat, enableStep_setpin]

/-- A transfer, with its settle wait, leaves `E` low (R98, R102). -/
theorem enableAfter_transferBody (us : List UopWord) (rs : Bool) (b : Byte) (n : TimeName) :
    enableAfter (us ++ transferBody rs b n) = some false := by
  have hsplit : us ++ transferBody rs b n =
      us ++ setpinWord .rs rs :: nibbleProg (hiNibble b) ++ nibbleProg (loNibble b) ++ [waitWord n] := by
    simp [transferBody, byteProg]
  rw [hsplit, enableAfter_append_other _ (waitWord_leavesEnable n), enableAfter_nibbleProg]

/-- Every micro-program leaves `E` low (R94, R103, R104, R109). -/
theorem enableAfter_expand (op : ReqOp) (cls : DelayClass) (b : Byte) (c : Cfg) :
    enableAfter (expand op cls b c) = some false := by
  cases op with
  | cmd =>
    rw [expand, expandCmd_eq, enableAfter_append_other _ endWord_leavesEnable]
    exact enableAfter_transferBody [] ..
  | data =>
    rw [expand, expandData_eq, enableAfter_append_other _ endWord_leavesEnable]
    exact enableAfter_transferBody [] ..
  | init =>
    have hsplit : expand .init cls b c = clrrdyWord :: initBody c ++ [setrdyWord] ++ [endWord] := by
      simp [expand, expandInit_eq]
    rw [hsplit, enableAfter_append_other _ endWord_leavesEnable, enableAfter_append_other _ setrdyWord_leavesEnable]
    exact enableAfter_transferBody (clrrdyWord :: _) ..

/-- The level of `E` fits what the micro-ops made it: equal to it if they drove it, not high if none did. -/
def EnableFits (driven e : Level) : Prop := if driven.isSome then e = driven else e ≠ some true

theorem enableTracks_busy {s : State} (hp : s.phase ≠ .idle) :
    EnableTracks s ↔ EnableFits (enableAfter (s.uprog.take s.upc.toNat)) s.pins.e := by
  unfold EnableTracks
  split
  · exact absurd ‹_› hp
  · rfl
  · rfl

theorem enableTracks_idle {s : State} (hp : s.phase = .idle) : EnableTracks s ↔ s.pins.e ≠ some true := by
  unfold EnableTracks
  rw [hp]

/-- A micro-op that goes on to the next keeps `E` tracked, when it does to `E` what its word says. -/
theorem enableTracks_next {s t : State} {u : UopWord} (hi : Inv s) (h : EnableTracks s) (hp : s.phase ≠ .idle)
    (hu : fetch s = some u) (hne : u ≠ endWord) (ht : t.phase ≠ .idle) (hup : t.upc = s.upc + 1)
    (hprog : t.uprog = s.uprog)
    (he : (∃ v, u = setpinWord .e v ∧ t.pins.e = some v) ∨ (LeavesEnable u ∧ t.pins.e = s.pins.e)) :
    EnableTracks t := by
  rw [enableTracks_busy hp] at h
  unfold fetch at hu
  rw [enableTracks_busy ht, hprog, hup, hi.upc_next hp hu hne, List.take_add_one, hu, Option.toList_some,
    enableAfter_concat]
  rcases he with ⟨v, rfl, hv⟩ | ⟨hother, hv⟩
  · rw [enableStep_setpin, hv]
    rfl
  · rwa [enableStep_other hother, hv]

/-- At END the whole micro-program has been run, so `E` is low (R94). -/
theorem enableTracks_finish {s : State} (hi : Inv s) (h : EnableTracks s) (hp : s.phase = .exec)
    (hu : fetch s = some endWord) : EnableTracks (finish s) := by
  have hb : s.phase ≠ .idle := by simp [hp]
  have hlow : enableAfter (s.uprog.take s.upc.toNat) = some false := by
    have hlast := hi.end_place hb hu
    unfold fetch at hu
    calc enableAfter (s.uprog.take s.upc.toNat)
        = enableAfter (s.uprog.take s.upc.toNat ++ [endWord]) := (enableAfter_append_other _ endWord_leavesEnable).symm
      _ = enableAfter s.uprog := by
        rw [← Option.toList_some endWord, ← hu, ← List.take_add_one, hlast, List.take_length]
      _ = some false := by rw [hi.program hb, enableAfter_expand]
  rw [enableTracks_busy hb, hlow] at h
  have he : s.pins.e = some false := h
  exact (enableTracks_idle (finish_phase s)).mpr (by simp [he])

/-- Every turn of the block keeps `E` at the level the micro-ops so far left it. -/
theorem enableTracks_moves {s t : State} (hi : Inv s) (h : EnableTracks s) (hm : Moves s t) : EnableTracks t := by
  cases hm with
  | idles | illegal | notReady => exact h
  | accepts op cls b rest hp => exact (enableTracks_idle hp).mp h
  | drives p v hp hu =>
    have hb : s.phase ≠ .idle := by simp [hp]
    refine enableTracks_next hi h hb hu (setpinWord_ne_end p v) hb rfl rfl ?_
    by_cases hpe : p = .e
    · subst hpe
      exact .inl ⟨v, rfl, rfl⟩
    · exact .inr ⟨setpinWord_leavesEnable hpe v, latch_setLatch_other s.pins v (Ne.symm hpe)⟩
  | waits n hp =>
    have hfits := (enableTracks_busy (by simp [hp])).mp h
    exact (enableTracks_busy (by simp)).mpr hfits
  | ends hp hu => exact enableTracks_finish hi h hp hu
  | setsReady hp hu =>
    have hb : s.phase ≠ .idle := by simp [hp]
    exact enableTracks_next hi h hb hu (by decide) hb rfl rfl (.inr ⟨setrdyWord_leavesEnable, rfl⟩)
  | clearsReady hp hu =>
    have hb : s.phase ≠ .idle := by simp [hp]
    exact enableTracks_next hi h hb hu (by decide) hb rfl rfl (.inr ⟨clrrdyWord_leavesEnable, rfl⟩)
  | returns hp =>
    obtain ⟨n, hu, -⟩ := hi.waiting hp
    exact enableTracks_next hi h (by simp [hp]) hu (waitWord_ne_end n) (by simp) rfl rfl
      (.inr ⟨waitWord_leavesEnable n, rfl⟩)

/-- Settles O46: a turn of the block keeps `E` tracked, the environment's moves leave the block, and a new block has not
driven `E`. -/
theorem stepKeepsEnableLowAtRest : Obligations.StepKeepsEnableLowAtRest := by
  intro s t hi h hst
  rcases step_block_cases hst with ⟨rest, hm⟩ | hsame | ⟨a, rest, -, ha, rfl⟩
  · exact enableTracks_moves (inv_passTime hi rest) h hm
  · rw [← hsame] at h
    exact h
  · rw [resetBlock_legal ha]
    have hundriven : Pins.undriven.e ≠ some true := by decide
    exact (enableTracks_idle rfl).mpr hundriven

/-! ## No latch is read (R91, R101) -/

/-- The state with other latches. -/
def withPins (q : Pins) (s : State) : State := { s with pins := q }

/-- `f` reads no latch: from states that differ in their latches only it goes on to states that differ so. -/
def IgnoresPins (f : State → Host.Outcome State Fault Refusal) : Prop :=
  ∀ (s t : State) (q : Pins), f s = .next t → ∃ q', f (withPins q s) = .next (withPins q' t)

/-- SETPIN writes its latch and reads none. -/
theorem ignoresPins_drivePin (p : Pin) (v : Bool) : IgnoresPins (drivePin p v) := by
  intro s t q h
  obtain ⟨hr, rfl⟩ := drivePin_cases h
  exact ⟨setLatch q p v, drivePin_next p v (withPins q s) hr⟩

/-- No micro-op reads a latch (R91). -/
theorem ignoresPins_microOp {u : UopWord} {i : Instr} (h : UopShape u i) : IgnoresPins (exec i) := by
  cases h with
  | setpin p v =>
    rw [funext (exec_setpin p v)]
    exact ignoresPins_drivePin p v
  | wait | endOp | setrdy | clrrdy =>
    intro s t q h
    cases h
    exact ⟨q, rfl⟩

/-- The port accepts, rejects or holds by `PHASE` and `READY` (R119 to R121). -/
theorem submitRequest_withPins {op : ReqOp} {cls : DelayClass} {b : Byte} {need : Bool} {prog : List UopWord}
    {s t : State} (h : submitRequest op cls b need prog s = .next t) (q : Pins) :
    submitRequest op cls b need prog (withPins q s) = .next (withPins q t) := by
  rcases submitRequest_cases h with ⟨hp, rfl⟩ | ⟨hp, rfl, hr, rfl⟩ | ⟨hp, hr, rfl⟩
  · exact submitRequest_holds hp
  · exact submitRequest_rejects hp hr
  · exact submitRequest_accepts hp hr

theorem ignoresPins_portTurn : IgnoresPins portTurn := by
  intro s t q h
  cases hh : s.held with
  | nil =>
    cases (portTurn_empty hh).symm.trans h
    exact ⟨q, portTurn_empty hh⟩
  | cons w rest =>
    cases hd : decodeReq w with
    | bad why =>
      cases (portTurn_illegal hh hd).symm.trans h
      exact ⟨q, portTurn_illegal hh hd⟩
    | instr i =>
      rw [portTurn_instr hh hd] at h
      refine ⟨q, (portTurn_instr (s := withPins q s) hh hd).trans ?_⟩
      rcases decodeReq_instr hd with ⟨c, b, rfl, -⟩ | ⟨b, rfl, -⟩ | ⟨rfl, -⟩ <;> exact submitRequest_withPins h q

theorem ignoresPins_fetchTurn : IgnoresPins fetchTurn := by
  intro s t q h
  unfold fetchTurn at h
  split at h
  · cases h
  · rename_i u hu
    split at h
    · cases h
    · rename_i i hd
      rw [fetchTurn_instr (s := withPins q s) hu hd]
      exact ignoresPins_microOp (decodeUop_instr hd) s t q h

theorem ignoresPins_blockTurn : IgnoresPins blockTurn := by
  intro s t q h
  cases hp : s.phase with
  | idle =>
    rw [blockTurn_idle hp] at h
    rw [blockTurn_idle (s := withPins q s) hp]
    exact ignoresPins_portTurn s t q h
  | exec =>
    rw [blockTurn_exec hp] at h
    rw [blockTurn_exec (s := withPins q s) hp]
    exact ignoresPins_fetchTurn s t q h
  | delay =>
    cases (blockTurn_delay hp).symm.trans h
    exact ⟨q, blockTurn_delay hp⟩

/-- A construction leaves the latches, when it is refused, or makes all of them unknown (R37, R139). -/
theorem resetBlock_withPins (a : ConstructArgs) (s : State) (q : Pins) :
    ∃ q', resetBlock a (withPins q s) = withPins q' (resetBlock a s) := by
  cases ha : a.legal with
  | true =>
    rw [resetBlock_legal ha, resetBlock_legal ha]
    exact ⟨Pins.undriven, rfl⟩
  | false =>
    rw [resetBlock_illegal ha, resetBlock_illegal ha]
    exact ⟨q, rfl⟩

/-- Neither the block's turn nor a move of the environment reads a latch. -/
theorem ignoresPins_step : IgnoresPins step := by
  intro s t q h
  have hturn : ∀ {r : State}, step s = blockTurn r → step (withPins q s) = blockTurn (withPins q r) →
      ∃ q', step (withPins q s) = .next (withPins q' t) := fun {r} hs hq => by
    obtain ⟨q', hnext⟩ := ignoresPins_blockTurn r t q (hs.symm.trans h)
    exact ⟨q', hq.trans hnext⟩
  match hh : s.host with
  | [] => exact hturn (step_alone hh) (step_alone hh)
  | .run :: rest => exact hturn (step_run hh) (step_run hh)
  | .neverReturns :: rest =>
    by_cases hp : s.phase = .delay
    · cases (step_hung hp hh).symm.trans h
      exact ⟨q, step_hung hp hh⟩
    · exact hturn (step_neverReturns hp hh) (step_neverReturns hp hh)
  | .elapse :: rest =>
    cases (step_elapse hh).symm.trans h
    exact ⟨q, step_elapse hh⟩
  | .submit w :: rest =>
    cases (step_submit hh).symm.trans h
    exact ⟨q, step_submit hh⟩
  | .readStat :: rest =>
    cases (step_readStat hh).symm.trans h
    exact ⟨q, step_readStat hh⟩
  | .reset a :: rest =>
    cases (step_reset hh).symm.trans h
    obtain ⟨q', hq⟩ := resetBlock_withPins a { passTime s with host := rest } q
    exact ⟨q', (step_reset (s := withPins q s) hh).trans (congrArg Host.Outcome.next hq)⟩

/-- Settles O52: `ignoresPins_step` says it of the step. -/
theorem pinsInfluenceNothing : Obligations.PinsInfluenceNothing :=
  fun s t q h => ignoresPins_step s t q h

end Sys2Proof.Machine
end

section
/-!
PROOFS. The family 41_mode_controller.md: the accept of a transfer, the traces its micro-program records, and a transfer
run from its submission to its END.
-/

namespace Sys2Proof.Machine

/-! ## The accept of a request -/

/-- Settles O19: an idle, Ready block accepts what needs `READY`. -/
theorem cmdAcceptedWhenReady : Obligations.CmdAcceptedWhenReady :=
  fun _ _ _ hp hr => submitRequest_accepts hp fun _ => hr

/-- Settles O20: an idle, Ready block accepts what needs `READY`. -/
theorem dataAcceptedWhenReady : Obligations.DataAcceptedWhenReady :=
  fun _ _ hp hr => submitRequest_accepts hp fun _ => hr

/-- The word of a latched request decodes to its instruction (R67, R71). -/
theorem decodeReq_request {op : ReqOp} {cls : DelayClass} {b : Byte} (hf : fieldsFit op cls b) :
    decodeReq (reqWord (reqOpCode op) cls.bit b) = .instr (requestInstr op cls b) := by
  cases op with
  | cmd => exact decodeReq_cmdWord cls b
  | data =>
    cases hf
    exact decodeReq_dataWord b
  | init =>
    obtain ⟨rfl, rfl⟩ := hf
    exact decodeReq_initWord

/-- The state after the step that accepts a request, with the words `rest` left at the port (R119). -/
def accepted (op : ReqOp) (cls : DelayClass) (b : Byte) (rest : List ReqWord) (s : State) : State :=
  accept op cls b (expand op cls b s.cfg) { passTime s with held := rest }

/-- With no environment move, an idle block accepts the oldest word at the port, when its request may run (R119). -/
theorem step_accepts {s : State} {op : ReqOp} {cls : DelayClass} {b : Byte} {rest : List ReqWord} (hh : s.host = [])
    (hp : s.phase = .idle) (hw : s.held = reqWord (reqOpCode op) cls.bit b :: rest) (hf : fieldsFit op cls b)
    (hr : op ≠ .init → s.ready = true) : step s = .next (accepted op cls b rest s) := by
  rw [step_port hh hp hw (decodeReq_request hf), exec_request hf]
  exact submitRequest_accepts hp fun ho => hr (of_decide_eq_true ho)

theorem events_accepted (op : ReqOp) (cls : DelayClass) (b : Byte) (rest : List ReqWord) (s : State) :
    events (accepted op cls b rest s) = events s ++ [.accept (reqWord (reqOpCode op) cls.bit b)] := by
  simp [accepted, events]

/-! ## What the micro-programs record -/

section
variable (t : Timing)

theorem progEvents_setpin_cons (p : Pin) (v : Bool) (us : List UopWord) :
    progEvents t (setpinWord p v :: us) = .set p v :: progEvents t us :=
  List.filterMap_cons_some (uopEvent_setpin t p v)

theorem progEvents_wait_cons (n : TimeName) (us : List UopWord) :
    progEvents t (waitWord n :: us) = .wait (timingOf t n) :: progEvents t us :=
  List.filterMap_cons_some (uopEvent_wait t n)

theorem progEvents_nil : progEvents t [] = [] := rfl

/-- NIBBLE records the events of its bus cycle (R97). -/
theorem progEvents_nibbleProg (n : Nibble) : progEvents t (nibbleProg n) = nibbleEvents t n := by
  simp only [nibbleProg, progEvents_setpin_cons, progEvents_wait_cons, progEvents_nil, timingOf, nibbleEvents,
    cycleEvents]

/-- The bus part of a transfer records the trace R103 and R104 write out. -/
theorem progEvents_transferBody (rs : Bool) (b : Byte) (n : TimeName) :
    progEvents t (transferBody rs b n) = transferEvents t rs b (timingOf t n) := by
  simp only [transferBody, byteProg, transferEvents_eq, progEvents_setpin_cons, progEvents_append,
    progEvents_nibbleProg, progEvents_wait_cons, progEvents_nil, List.cons_append, List.append_assoc]

/-- INIT drives `RW` low in a block that has the handle (R109). -/
theorem progEvents_initRwProg (c : Cfg) :
    progEvents t (initRwProg c) = if c.rwp then [.set .rw false] else [] := by
  unfold initRwProg
  split
  · exact progEvents_setpin_cons t .rw false []
  · rfl

/-- The bus part of INIT records the trace R109 writes out. -/
theorem progEvents_initBody (c : Cfg) : progEvents t (initBody c) = initEvents c t := by
  simp only [initBody, initEvents_eq, initLowEvents, initBusEvents, progEvents_append, progEvents_setpin_cons,
    progEvents_wait_cons, progEvents_initRwProg, progEvents_nibbleProg, progEvents_transferBody,
    timingOf, List.append_assoc, List.cons_append, List.nil_append, List.append_nil]

end

/-- Settles O35: each micro-program is its bus part, which records the rules' trace, and END; CLRRDY and SETRDY record
nothing. -/
theorem programsRecordTheirTraces : Obligations.ProgramsRecordTheirTraces := by
  intro c t b
  have hend : progEvents t [endWord] = [.done] := rfl
  have htransfer (rs : Bool) (n : TimeName) :
      progEvents t (transferBody rs b n ++ [endWord]) = transferEvents t rs b (timingOf t n) ++ [.done] := by
    rw [progEvents_append, progEvents_transferBody, hend]
  have hinit : progEvents t (expandInit c) = initEvents c t ++ [.done] := by
    have hclrrdy : progEvents t [clrrdyWord] = [] := rfl
    have hsetrdy : progEvents t [setrdyWord, endWord] = [.done] := rfl
    rw [expandInit_eq, ← List.singleton_append, progEvents_append, progEvents_append, hclrrdy, hsetrdy,
      progEvents_initBody, List.nil_append]
  rw [expandCmd_eq, expandCmd_eq, expandData_eq]
  exact ⟨htransfer false .short, htransfer false .long, htransfer true .short, hinit⟩

/-! ## A transfer as a whole: its steps, its duration, the pins it leaves -/

/-- One bus cycle: six SETPINs of a step each, three WAITs of two (R97, R93). -/
theorem progSteps_nibbleProg (n : Nibble) : progSteps (nibbleProg n) = 12 := by
  simp [progSteps, nibbleProg, uopSteps_setpin, uopSteps_wait]

theorem progSteps_transferBody (rs : Bool) (b : Byte) (n : TimeName) : progSteps (transferBody rs b n) = 27 := by
  have hrs : progSteps [setpinWord .rs rs] = 1 := by simp [progSteps, uopSteps_setpin]
  have hsettle : progSteps [waitWord n] = 2 := by simp [progSteps, uopSteps_wait]
  rw [transferBody, byteProg, ← List.singleton_append, progSteps_append, progSteps_append, progSteps_append, hrs, hsettle,
    progSteps_nibbleProg, progSteps_nibbleProg]

/-- A transfer lasts two bus cycles and its settle wait (R100, R155). -/
theorem progDelay_transferBody (t : Timing) (rs : Bool) (b : Byte) (n : TimeName) :
    progDelay t (transferBody rs b n) = 2 * cycleTime t + timingOf t n := by
  simp only [progDelay, progEvents_transferBody, transferEvents, cycleEvents, cycleTime, eventDelay, List.cons_append,
    List.nil_append, List.map_cons, List.map_nil, List.sum_cons, List.sum_nil]
  omega

theorem progPins_transferBody (q : Pins) (rs : Bool) (b : Byte) (n : TimeName) :
    progPins q (transferBody rs b n) = afterByte q rs b := by
  rw [progPins, progEvents_transferBody, transferEvents_eq]
  rfl

/-- The data pins end at the low nibble of the byte, `E` low and `RS` as the transfer set it (R106, R44). -/
theorem afterByte_eq (q : Pins) (rs : Bool) (b : Byte) :
    afterByte q rs b =
      { d4 := some (b.getLsbD 0), d5 := some (b.getLsbD 1), d6 := some (b.getLsbD 2), d7 := some (b.getLsbD 3),
        rs := some rs, e := some false, rw := q.rw } := by
  simp [afterByte, afterNibble, loNibble]

/-! ## A transfer run to its END -/

/-- Bus micro-ops write no flag, nothing at the port, and nothing of the far end or the environment (R92, R93). -/
theorem Ran.kept {s t : State} {us : List UopWord} (h : Ran s us t) :
    t.host = s.host ∧ t.uprog = s.uprog ∧ t.reqOp = s.reqOp ∧ t.ready = s.ready ∧ t.farSync = s.farSync ∧
      t.held = s.held ∧ t.replies = s.replies := by
  rw [← h.same]
  exact ⟨rfl, rfl, rfl, rfl, rfl, rfl, rfl⟩

/-- With no environment move, a step at END finishes the request (R94). -/
theorem step_end {s : State} (hh : s.host = []) (hp : s.phase = .exec) (hu : fetch s = some endWord) :
    step s = .next (finish (passTime s)) :=
  step_exec hh hp hu decodeUop_endWord

/-- A micro-program of bus micro-ops and END runs to its end when the environment makes no move. -/
theorem run_bus_end {s : State} {body : List UopWord} (hh : s.host = []) (hp : s.phase = .exec) (hup : s.upc = 0)
    (hprog : s.uprog = body ++ [endWord]) (hb : ∀ u ∈ body, BusUop s.cfg u) (hl : body.length < 128) :
    ∃ r, Ran s body r ∧ run (progSteps body + 1) s = .next (finish (passTime r)) := by
  have h0 : s.upc.toNat = 0 := by rw [hup]; rfl
  obtain ⟨r, hrun, hran⟩ := run_bus body s [endWord] hh hp (by rw [h0, hprog]; rfl) hb (by omega)
  obtain ⟨hhost, huprog, -⟩ := hran.kept
  have hend : fetch r = some endWord := by
    rw [fetch, huprog, hran.upc, h0, hprog, Nat.zero_add, List.getElem?_concat_length]
  refine ⟨r, hran, ?_⟩
  rw [run_add _ _ _ _ hrun, run, step_end (hhost.trans hh) hran.phase hend]
  rfl

theorem events_finish (s : State) : events (finish s) = events s ++ [.done] := by
  simp [events]

/-- CMD and DATA from submission to their END, with no environment move between (R103, R104, R106, R62, R155): 29 steps,
one for the accept, 27 for the bus part and one for END. -/
theorem run_transfer {s : State} {op : ReqOp} {cls : DelayClass} {b : Byte} {rest : List ReqWord} {rs : Bool}
    {n : TimeName} (hh : s.host = []) (hp : s.phase = .idle) (hr : s.ready = true)
    (hw : s.held = reqWord (reqOpCode op) cls.bit b :: rest) (hf : fieldsFit op cls b) (ho : op ≠ .init)
    (hprog : expand op cls b s.cfg = transferBody rs b n ++ [endWord]) :
    ∃ t, run 29 s = .next t ∧
      events t = events s ++ .accept (reqWord (reqOpCode op) cls.bit b) ::
        (transferEvents s.timing rs b (timingOf s.timing n) ++ [.done]) ∧
      t.pins = afterByte s.pins rs b ∧ t.ready = s.ready ∧ t.last = .ok ∧ t.phase = .idle ∧ t.farSync = s.farSync ∧
      t.held = rest ∧ t.replies = s.replies ++ [.status .ok] ∧
      s.now + (2 * cycleTime s.timing + timingOf s.timing n) ≤ t.now := by
  have hlen : (transferBody rs b n).length < 128 := by simp [transferBody, byteProg_length]
  obtain ⟨r, hran, hrun⟩ :=
    run_bus_end (s := accepted op cls b rest s) hh rfl rfl hprog (transferBody_busUop s.cfg rs b n) hlen
  obtain ⟨-, -, hop, hready, hsync, hheld, hreplies⟩ := hran.kept
  refine ⟨finish (passTime r), ?_, ?_, ?_, hready, rfl, rfl, ?_, hheld, ?_, ?_⟩
  · rw [progSteps_transferBody] at hrun
    rw [run, step_accepts hh hp hw hf fun _ => hr]
    exact hrun
  · have hev := hran.events
    rw [progEvents_transferBody] at hev
    have hpass : events (passTime r) = events r := rfl
    rw [events_finish, hpass, hev, events_accepted, List.append_assoc, List.append_assoc]
    rfl
  · exact hran.pins.trans (progPins_transferBody s.pins rs b n)
  · rw [finish_farSync, passTime_reqOp, hop, farSyncAtEnd_eq]
    exact (if_neg ho).trans hsync
  · exact congrArg (· ++ [Reply.status .ok]) hreplies
  · have hclock := hran.clock
    rw [progDelay_transferBody] at hclock
    have hstart : s.now ≤ (accepted op cls b rest s).now := Nat.le_add_right _ _
    have hlast : r.now ≤ (passTime r).now := Nat.le_add_right _ _
    exact (Nat.add_le_add_right hstart _).trans (hclock.trans hlast)

/-- Settles O55: CMD is a transfer with `RS` low, whose settle wait its class names. -/
theorem cmdRunsToItsEnd : Obligations.CmdRunsToItsEnd := by
  intro c b rest s hh hp hr hw
  obtain ⟨t, hrun, hevents, hpins, hrest⟩ :=
    run_transfer (op := .cmd) hh hp hr hw trivial (by decide) (expandCmd_eq c b)
  refine ⟨t, hrun, ?_⟩
  rw [hpins, afterByte_eq]
  cases c with
  | short => exact ⟨hevents, rfl, rfl, rfl, rfl, rfl, rfl, rfl, hrest⟩
  | long => exact ⟨hevents, rfl, rfl, rfl, rfl, rfl, rfl, rfl, hrest⟩

/-- Settles O56: DATA is a transfer with `RS` high and the short settle wait. -/
theorem dataRunsToItsEnd : Obligations.DataRunsToItsEnd := by
  intro b rest s hh hp hr hw
  obtain ⟨t, hrun, hevents, hpins, hrest⟩ :=
    run_transfer (op := .data) (cls := .short) hh hp hr hw rfl (by decide) (expandData_eq b)
  refine ⟨t, hrun, ?_⟩
  rw [hpins, afterByte_eq]
  exact ⟨hevents, rfl, rfl, rfl, rfl, rfl, rfl, rfl, hrest⟩

end Sys2Proof.Machine
end

section
/-!
PROOFS. The family 42_initialize.md: INIT's function-set byte, its micro-program by place, its accept, and INIT run from its
submission to its END.
-/

namespace Sys2Proof.Machine

/-! ## The words and the accept of INIT -/

/-- The function-set byte (R110) on the four values of the bits `N` and `F`. -/
theorem functionSetByte_eq (c : Cfg) :
    functionSetByte c = if c.n then (if c.f then 0x2C else 0x28) else if c.f then 0x24 else 0x20 := by
  unfold functionSetByte
  cases c.n <;> cases c.f <;> decide

/-- Settles O32: of the four bytes only 0x2C, with both bits set, comes from no legal `CFG` (R21). -/
theorem functionSetByteOfCfg : Obligations.FunctionSetByteOfCfg := by
  rintro ⟨n, f, rwp⟩
  rw [functionSetByte_eq]
  cases n <;> cases f
  · exact ⟨rfl, fun _ => .inl rfl⟩
  · exact ⟨rfl, fun _ => .inr (.inl rfl)⟩
  · exact ⟨rfl, fun _ => .inr (.inr rfl)⟩
  · exact ⟨rfl, fun hlegal => nomatch hlegal⟩

theorem initRwProg_length (c : Cfg) : (initRwProg c).length = if c.rwp then 1 else 0 := by
  unfold initRwProg
  split <;> rfl

/-- INIT's micro-program before its first bus cycle (R109). -/
def initHead (c : Cfg) : List UopWord :=
  [clrrdyWord, setpinWord .e false, setpinWord .rs false] ++ initRwProg c ++ [waitWord .powerOn]

/-- INIT's micro-program, grouped as the lines of R109's table. -/
theorem expandInit_eq_lines (c : Cfg) :
    expandInit c =
      initHead c ++ ((nibbleProg 0x3 ++ [waitWord .init1]) ++ ((nibbleProg 0x3 ++ [waitWord .init2]) ++
        ((nibbleProg 0x3 ++ [waitWord .short]) ++ ((nibbleProg 0x2 ++ [waitWord .short]) ++
          (transferBody false (functionSetByte c) .short ++ (transferBody false 0x08 .short ++
            (transferBody false 0x01 .long ++ (transferBody false 0x06 .short ++ [setrdyWord, endWord])))))))) := by
  unfold expandInit initHead transferBody
  simp only [List.append_assoc]

/-- A list that from place `k` on is a line of `n` entries and a rest: the line stands at `k`, the rest at `k + n`. -/
theorem line_at {α : Type} {l line rest : List α} {k n : Nat} (h : l.drop k = line ++ rest) (hn : line.length = n) :
    (l.drop k).take n = line ∧ l.drop (k + n) = rest := by
  refine ⟨?_, ?_⟩
  · rw [h, List.take_left' hn]
  · rw [← List.drop_drop, h, List.drop_left' hn]

/-- Settles O33: the lines of R109's table follow one another (`line_at`) from the first bus cycle, at place `4 + RWP`. -/
theorem initProgramByPlace : Obligations.InitProgramByPlace := by
  intro c r hr
  have hrw : (initRwProg c).length = r := (initRwProg_length c).trans hr.symm
  have hlen : (initHead c).length = 4 + r := by
    simp only [initHead, List.length_append, List.length_cons, List.length_nil, hrw]
    omega
  have h4 := congrArg (List.drop (4 + r)) (expandInit_eq_lines c)
  rw [List.drop_left' hlen] at h4
  obtain ⟨hinit1, h14⟩ := line_at h4 (n := 10) rfl
  obtain ⟨hinit2, h24⟩ := line_at h14 (n := 10) rfl
  obtain ⟨hthird, h34⟩ := line_at h24 (n := 10) rfl
  obtain ⟨hfour, h44⟩ := line_at h34 (n := 10) rfl
  obtain ⟨hfs, h64⟩ := line_at h44 (n := 20) rfl
  obtain ⟨hoff, h84⟩ := line_at h64 (n := 20) rfl
  obtain ⟨hclear, h104⟩ := line_at h84 (n := 20) rfl
  obtain ⟨hentry, h124⟩ := line_at h104 (n := 20) rfl
  simp only [Nat.add_right_comm _ r, Nat.reduceAdd] at hinit2 hthird hfour hfs hoff hclear hentry h124
  refine ⟨?_, ?_, ?_, ?_, hinit1, hinit2, hthird, hfour, hfs, hoff, hclear, hentry, h124⟩
  · simp only [expandInit_eq, List.length_cons, List.length_append, List.length_nil, initBody_length, hrw]
    omega
  · rw [expandInit_eq_lines]
    rfl
  · intro hc
    rw [expandInit_eq_lines, initHead, initRwProg, if_pos hc]
    rfl
  · have hplace : (initHead c)[3 + r]? = some (waitWord .powerOn) := by
      rw [initHead, ← hrw, Nat.add_comm]
      exact List.getElem?_concat_length
    rw [expandInit_eq_lines, List.getElem?_append_left (by omega), hplace]
    rfl

/-- Settles O21: an idle block accepts what needs no `READY`. -/
theorem initAcceptedInEveryMode : Obligations.InitAcceptedInEveryMode :=
  fun _ hp => submitRequest_accepts hp fun hneeds => nomatch hneeds

/-! ## INIT's bus part as a whole: its steps, its duration, the pins it leaves -/

theorem progSteps_wait (n : TimeName) : progSteps [waitWord n] = 2 := by
  simp [progSteps, uopSteps_wait]

theorem progSteps_setpin (p : Pin) (v : Bool) : progSteps [setpinWord p v] = 1 := by
  simp [progSteps, uopSteps_setpin]

theorem progSteps_initRwProg (c : Cfg) : progSteps (initRwProg c) = if c.rwp then 1 else 0 := by
  unfold initRwProg
  split
  · exact progSteps_setpin .rw false
  · rfl

/-- The `123 + RWP` bus micro-ops of INIT, 45 of them WAITs, which take a second step (R109, assumption 5). -/
theorem progSteps_initBody (c : Cfg) : progSteps (initBody c) = 168 + if c.rwp then 1 else 0 := by
  have hlow : progSteps [setpinWord .e false, setpinWord .rs false] = 2 := by
    simp [progSteps, uopSteps_setpin]
  simp only [initBody, progSteps_append, progSteps_wait, progSteps_initRwProg, progSteps_nibbleProg,
    progSteps_transferBody, hlow]
  omega

theorem progDelay_wait (t : Timing) (n : TimeName) : progDelay t [waitWord n] = timingOf t n := by
  simp [progDelay, progEvents, uopEvent_wait, eventDelay]

/-- A bus cycle lasts its three WAITs (R100, R155). -/
theorem progDelay_nibbleProg (t : Timing) (n : Nibble) : progDelay t (nibbleProg n) = cycleTime t := by
  simp [progDelay, progEvents_nibbleProg, nibbleEvents, cycleEvents, eventDelay, cycleTime, Nat.add_assoc]

theorem progDelay_initRwProg (t : Timing) (c : Cfg) : progDelay t (initRwProg c) = 0 := by
  rw [progDelay, progEvents_initRwProg]
  split <;> rfl

/-- INIT's WAITs add up to its line of R155's table. -/
theorem progDelay_initBody (t : Timing) (c : Cfg) : progDelay t (initBody c) = minDuration t .init .short := by
  have hlow : progDelay t [setpinWord .e false, setpinWord .rs false] = 0 := rfl
  simp only [initBody, progDelay_append, progDelay_wait, progDelay_initRwProg, progDelay_nibbleProg,
    progDelay_transferBody, hlow, timingOf, minDuration]
  omega

/-- INIT leaves the pins of its last byte, 0x06, with `RW` low when there is a handle (R109, R114). -/
theorem progPins_initBody (q : Pins) (c : Cfg) :
    progPins q (initBody c) = afterByte (afterInitLow q c) false 0x06 := by
  have hlow : (initLowEvents c Config.defaultTiming).foldl pinsAfter q = afterInitLow q c := by
    unfold initLowEvents afterInitLow
    split <;> rfl
  rw [progPins, progEvents_initBody, initEvents_eq, List.foldl_append, hlow]
  rfl

/-! ## INIT run to its END -/

/-- The micro-ops of `UPROG` from `UPC` on. -/
def upcoming (s : State) : List UopWord := s.uprog.drop s.upc.toNat

section
variable {s : State} {u : UopWord} {us : List UopWord}

theorem fetch_of_upcoming (h : upcoming s = u :: us) : fetch s = some u := by
  rw [fetch, ← List.head?_drop]
  exact congrArg List.head? h

/-- `UPC` moves past the micro-op at it (R26, R90). -/
theorem upcoming_advance (h : upcoming s = u :: us) (hl : s.uprog.length < 128) : upcoming (advance s) = us := by
  have hin : s.upc.toNat < s.uprog.length := by
    by_contra hout
    rw [upcoming, List.drop_eq_nil_of_le (Nat.le_of_not_lt hout)] at h
    cases h
  have hupc : (s.upc + 1).toNat = s.upc.toNat + 1 := upc_succ (by omega)
  rw [upcoming, advance_uprog, advance_upc, hupc, ← List.drop_drop]
  exact congrArg (List.drop 1) h

theorem Ran.upcoming {t : State} {vs : List UopWord} (h : Ran s us t) (hs : upcoming s = us ++ vs) : upcoming t = vs := by
  obtain ⟨-, huprog, -⟩ := h.kept
  rw [Machine.upcoming, huprog, h.upc, ← List.drop_drop]
  exact (congrArg (List.drop us.length) hs).trans List.drop_left

/-- With no environment move, a step at CLRRDY leaves Ready (R96). -/
theorem step_clrrdy (hh : s.host = []) (hp : s.phase = .exec) (hu : fetch s = some clrrdyWord) :
    step s = .next (advance (clearReady (passTime s))) :=
  step_exec hh hp hu decodeUop_clrrdyWord

/-- With no environment move, a step at SETRDY enters Ready (R95). -/
theorem step_setrdy (hh : s.host = []) (hp : s.phase = .exec) (hu : fetch s = some setrdyWord) :
    step s = .next (advance (setReady (passTime s))) :=
  step_exec hh hp hu decodeUop_setrdyWord

/-- SETRDY and END, INIT's last two micro-ops, run to its end (R94, R95, R109). -/
theorem run_setrdy_end (hh : s.host = []) (hp : s.phase = .exec) (hup : upcoming s = [setrdyWord, endWord])
    (hl : s.uprog.length < 128) : run 2 s = .next (finish (passTime (advance (setReady (passTime s))))) := by
  have hend : fetch (advance (setReady (passTime s))) = some endWord :=
    fetch_of_upcoming (upcoming_advance (s := setReady (passTime s)) hup hl)
  rw [run, step_setrdy hh hp (fetch_of_upcoming hup)]
  simp only [run, step_end (s := advance (setReady (passTime s))) hh hp hend]

end

/-- INIT's micro-program runs to its end when the environment makes no move: CLRRDY, the bus part, SETRDY and END. -/
theorem run_expandInit {s : State} {c : Cfg} (hh : s.host = []) (hp : s.phase = .exec) (hup : s.upc = 0)
    (hcfg : s.cfg = c) (hprog : s.uprog = expandInit c) :
    ∃ r, Ran (advance (clearReady (passTime s))) (initBody c) r ∧
      run (1 + (progSteps (initBody c) + 2)) s = .next (finish (passTime (advance (setReady (passTime r))))) := by
  have hlen : s.uprog.length < 128 := by
    rw [hprog]
    exact Nat.lt_succ_of_le (expand_length_le .init .short 0 c)
  have hstart : upcoming s = clrrdyWord :: (initBody c ++ [setrdyWord, endWord]) := by
    rw [upcoming, hup, hprog, expandInit_eq]
    rfl
  have hbus := upcoming_advance (s := clearReady (passTime s)) hstart hlen
  have hfit : (advance (clearReady (passTime s))).upc.toNat + (initBody c).length < 128 := by
    have hone : (advance (clearReady (passTime s))).upc.toNat = 1 := by
      simp [hup]
    rw [hprog, expandInit_eq, List.length_cons, List.length_append] at hlen
    omega
  have hallowed : ∀ u ∈ initBody c, BusUop s.cfg u := by
    rw [hcfg]
    exact initBody_busUop c
  obtain ⟨r, hrun, hran⟩ := run_bus (initBody c) (advance (clearReady (passTime s))) _ hh hp hbus hallowed hfit
  obtain ⟨hhost, huprog, -⟩ := hran.kept
  have hlast := run_setrdy_end (hhost.trans hh) hran.phase (hran.upcoming hbus) (huprog ▸ hlen)
  have hfirst : run 1 s = .next (advance (clearReady (passTime s))) := by
    simp only [run, step_clrrdy hh hp (fetch_of_upcoming hstart)]
  exact ⟨r, hran, by rw [run_add _ _ _ _ hfirst, run_add _ _ _ _ hrun, hlast]⟩

/-- What INIT's micro-program leaves when it has run to its end with no environment move (R109, R114, R94, R155). -/
theorem run_expandInit_effect {s : State} {c : Cfg} (hh : s.host = []) (hp : s.phase = .exec) (hup : s.upc = 0)
    (hcfg : s.cfg = c) (hprog : s.uprog = expandInit c) :
    ∃ t : State, run (if c.rwp then 172 else 171) s = .next t ∧
      events t = events s ++ initEvents c s.timing ++ [.done] ∧
      t.pins = afterByte (afterInitLow s.pins c) false 0x06 ∧
      t.ready = true ∧ t.last = .ok ∧ t.phase = .idle ∧ t.farSync = farSyncAtEnd s.reqOp s.farSync ∧ t.held = s.held ∧
      t.replies = s.replies ++ [.status .ok] ∧ s.now + minDuration s.timing .init .short ≤ t.now := by
  obtain ⟨r, hran, hrun⟩ := run_expandInit hh hp hup hcfg hprog
  obtain ⟨-, -, hop, -, hsync, hheld, hreplies⟩ := hran.kept
  refine ⟨finish (passTime (advance (setReady (passTime r)))), ?_, ?_, ?_, rfl, rfl, rfl, ?_, ?_, ?_, ?_⟩
  · have hsteps : (if c.rwp then 172 else 171) = 1 + (progSteps (initBody c) + 2) := by
      rw [progSteps_initBody]
      split <;> rfl
    rw [hsteps, hrun]
  · have hevents : events r = events s ++ progEvents s.timing (initBody c) := hran.events
    have hsame : events (passTime (advance (setReady (passTime r)))) = events r := rfl
    rw [events_finish, hsame, hevents, progEvents_initBody]
  · have hpins : r.pins = progPins s.pins (initBody c) := hran.pins
    simp [hpins, progPins_initBody]
  · simp [hop, hsync]
  · simp [hheld]
  · simp [hreplies]
  · have hclock : s.now + Config.gap s.tick + progDelay s.timing (initBody c) ≤ r.now := hran.clock
    rw [progDelay_initBody] at hclock
    simp only [finish_now, passTime_now, advance_now, setReady_now]
    omega

/-- Settles O57: one step accepts INIT (`step_accepts`), and its micro-program runs to its end from there. -/
theorem initRunsToReady : Obligations.InitRunsToReady := by
  intro rest s hh hp hw
  have haccept : step s = .next (accepted .init .short 0 rest s) := step_accepts hh hp hw ⟨rfl, rfl⟩ (absurd rfl)
  obtain ⟨t, hrun, hevents, hpins, hready, hlast, hphase, hsync, hheld, hreplies, hclock⟩ :=
    run_expandInit_effect (s := accepted .init .short 0 rest s) (c := s.cfg) hh rfl rfl rfl rfl
  refine ⟨t, ?_, ?_, ?_, hready, hlast, hphase, hsync, hheld, hreplies, ?_⟩
  · have hsteps : (if s.cfg.rwp then 173 else 172) = (if s.cfg.rwp then 172 else 171) + 1 := by
      split <;> rfl
    rw [hsteps, run, haccept]
    exact hrun
  · have htiming : (accepted .init .short 0 rest s).timing = s.timing := rfl
    have hword : reqWord (reqOpCode .init) DelayClass.short.bit 0 = initWord := rfl
    rw [hevents, events_accepted, htiming, hword, List.append_assoc, List.append_assoc, List.singleton_append]
  · rw [hpins, afterByte_eq]
    rfl
  · have hstart : s.now ≤ (accepted .init .short 0 rest s).now := Nat.le_add_right _ _
    exact (Nat.add_le_add_right hstart _).trans hclock

end Sys2Proof.Machine
end

section
/-!
PROOFS. The family 60_exceptions.md: the frame of a request at the port, its rejection and its holding, the `MicrocodeFault`,
and blocks beside one another.
-/

namespace Sys2Proof.Machine

/-! ## A request at the port -/

/-- Every request is the instruction of an operation, a class and a byte (R67). -/
theorem exists_requestInstr {i : Instr} (h : i.isRequest = true) :
    ∃ op cls b, fieldsFit op cls b ∧ i = requestInstr op cls b := by
  cases i with
  | cmd cls b => exact ⟨.cmd, cls, b, trivial, rfl⟩
  | data b => exact ⟨.data, .short, b, rfl, rfl⟩
  | init => exact ⟨.init, .short, 0, ⟨rfl, rfl⟩, rfl⟩
  | _ => cases h

/-- `t` is `s` but for what the port writes: the request and its micro-program, the phase, `LAST`, the trace, the words at
the port and the replies (R119 to R121). -/
def SameButPort (s t : State) : Prop :=
  { t with reqOp := s.reqOp, reqCls := s.reqCls, reqByte := s.reqByte, uprog := s.uprog, upc := s.upc, phase := s.phase,
           last := s.last, trace := s.trace, held := s.held, replies := s.replies } = s

/-- `t` has the latched request of `s`, and its place in the micro-program (R26, R27). -/
def SameRequest (s t : State) : Prop :=
  t.uprog = s.uprog ∧ t.upc = s.upc ∧ t.reqOp = s.reqOp ∧ t.reqCls = s.reqCls ∧ t.reqByte = s.reqByte

/-- A request that is rejected or held leaves the latched one; an accepted one leaves IDLE (R119 to R121). -/
theorem submitRequest_frame {op : ReqOp} {cls : DelayClass} {b : Byte} {need : Bool} {prog : List UopWord} {s t : State}
    (h : submitRequest op cls b need prog s = .next t) : SameButPort s t ∧ (t.phase = s.phase → SameRequest s t) := by
  rcases submitRequest_cases h with ⟨-, rfl⟩ | ⟨-, -, -, rfl⟩ | ⟨hp, -, rfl⟩
  · exact ⟨rfl, fun _ => ⟨rfl, rfl, rfl, rfl, rfl⟩⟩
  · exact ⟨rfl, fun _ => ⟨rfl, rfl, rfl, rfl, rfl⟩⟩
  · refine ⟨rfl, fun hq => ?_⟩
    rw [accept_phase, hp] at hq
    cases hq

/-- Settles O26: every request is a submission, which writes what is the port's only. -/
theorem requestFrame : Obligations.RequestFrame := by
  intro i s t hi h
  obtain ⟨op, cls, b, hf, rfl⟩ := exists_requestInstr hi
  rw [exec_request hf] at h
  obtain ⟨hport, hreq⟩ := submitRequest_frame h
  refine ⟨?_, ?_, ?_, ?_, ?_, ?_, ?_, ?_, ?_, ?_, ?_, ?_, hreq⟩
  all_goals rw [← hport]

/-- Settles O22: an idle block that is not Ready rejects what needs `READY`. -/
theorem transferRejectedWhenNotReady : Obligations.TransferRejectedWhenNotReady :=
  fun _ hp hr => ⟨fun _ _ => submitRequest_rejects hp hr, fun _ => submitRequest_rejects hp hr⟩

/-- Settles O24: a busy block holds every request, whether it needs `READY` or not. -/
theorem requestHeldWhileBusy : Obligations.RequestHeldWhileBusy :=
  fun _ hp => ⟨fun _ _ => submitRequest_holds hp, fun _ => submitRequest_holds hp, submitRequest_holds hp⟩

/-- Settles O23: `step_illegal` asks nothing of `READY`. -/
theorem illegalWordRejectedInEveryMode : Obligations.IllegalWordRejectedInEveryMode :=
  fun _ _ _ _ hh hp hw hd => step_illegal hh hp hw hd

/-- Settles O25: the step of a submission holds the word, in whatever phase. -/
theorem submittedWordIsQueued : Obligations.SubmittedWordIsQueued := fun _ _ _ hh => step_submit hh

/-- Settles O28: the block's turn in IDLE runs the request of the oldest word at the port. -/
theorem stepRunsSubmittedRequest : Obligations.StepRunsSubmittedRequest := by
  intro s w rest i hp hw hd
  refine ⟨fun hh => step_port hh hp hw hd, fun more hh => ?_⟩
  rw [step_run hh, blockTurn_idle (s := { passTime s with host := more }) hp]
  exact portTurn_instr hw hd

/-! ## The `MicrocodeFault` -/

/-- Only SETPIN RW asks something of `CFG` (R72). -/
theorem wellFormed_eq_false_iff {i : Instr} {c : Cfg} :
    i.wellFormed c = false ↔ (∃ v, i = .setpinRW v) ∧ c.rwp = false := by
  cases i <;> simp [Instr.wellFormed]

/-- The words of SETPIN RW are 0x30 and 0x31 (R69). -/
theorem decodeUop_setpinRW_iff {u : UopWord} :
    (∃ v, decodeUop u = .instr (.setpinRW v)) ↔ u = 0x30 ∨ u = 0x31 := by
  constructor
  · rintro ⟨v, hd⟩
    have hword : setpinWord .rw v = u := CodeWord.uop.inj (encodeOfDecodeIsSame (.uop u) _ hd)
    cases v with
    | false => exact .inl hword.symm
    | true => exact .inr hword.symm
  · rintro (rfl | rfl)
    · exact ⟨false, decodeUop_setpinWord .rw false⟩
    · exact ⟨true, decodeUop_setpinWord .rw true⟩

/-- The words no micro-program of a block may hold: BadUop words, and SETPIN RW without the handle (R72). -/
theorem uopWellFormed_eq_false_iff {u : UopWord} {c : Cfg} :
    uopWellFormed c u = false ↔ (∃ why, decodeUop u = .bad why) ∨ ((u = 0x30 ∨ u = 0x31) ∧ c.rwp = false) := by
  rw [← decodeUop_setpinRW_iff]
  cases hd : decodeUop u with
  | bad why => simp [uopWellFormed, hd]
  | instr i => simp [uopWellFormed_of_decodeUop hd, wellFormed_eq_false_iff]

/-- A micro-op raises the fault exactly when the block's `CFG` does not allow it (R118). -/
theorem exec_microcodeFault_iff {u : UopWord} {i : Instr} (h : UopShape u i) (s : State) :
    exec i s = .fault .microcodeFault ↔ i.wellFormed s.cfg = false := by
  cases h with
  | setpin p v =>
    rw [exec_setpin]
    by_cases hr : p = .rw → s.cfg.rwp = true
    · simp [drivePin_next p v s hr, wellFormed_setpin v hr]
    · obtain ⟨rfl, hc⟩ : p = .rw ∧ s.cfg.rwp = false := by simpa using hr
      exact iff_of_true (drivePin_fault v s hc) hc
  | wait | endOp | setrdy | clrrdy => exact iff_of_false nofun nofun

/-- The fetch of a micro-op ends in the fault exactly when the word is not well formed for the block (R72, R118). -/
theorem fetchTurn_microcodeFault_iff {s : State} :
    fetchTurn s = .fault .microcodeFault ↔ ∃ u, fetch s = some u ∧ uopWellFormed s.cfg u = false := by
  cases hu : fetch s with
  | none => simp [fetchTurn, hu]
  | some u =>
    cases hd : decodeUop u with
    | bad why => simp [fetchTurn, uopWellFormed, hu, hd]
    | instr i =>
      rw [fetchTurn_instr hu hd, exec_microcodeFault_iff (decodeUop_instr hd)]
      simp [uopWellFormed_of_decodeUop hd]

/-- Of the block's turns only a fetch can fault. -/
theorem phase_of_blockTurn_fault {s : State} {f : Fault} (h : blockTurn s = .fault f) : s.phase = .exec := by
  cases hp : s.phase with
  | idle =>
    obtain ⟨t, ht⟩ := portTurn_completes s
    rw [blockTurn_idle hp, ht] at h
    cases h
  | exec => rfl
  | delay => cases (blockTurn_delay hp).symm.trans h

/-- The script leaves the block its turn, when no delay is outstanding (assumption 6). -/
def BlocksTurn (s : State) : Prop :=
  s.host = [] ∨ (∃ rest, s.host = .run :: rest) ∨ (∃ rest, s.host = .neverReturns :: rest)

/-- In EXEC the block's turn is a fetch (R90). -/
theorem step_fetches {s : State} (hp : s.phase = .exec) (ht : BlocksTurn s) :
    ∃ rest, step s = fetchTurn { passTime s with host := rest } := by
  have hfetch : ∀ rest, blockTurn { passTime s with host := rest } = fetchTurn { passTime s with host := rest } :=
    fun _ => blockTurn_exec hp
  rcases ht with hh | ⟨rest, hh⟩ | ⟨rest, hh⟩
  · exact ⟨s.host, (step_alone hh).trans (hfetch s.host)⟩
  · exact ⟨rest, (step_run hh).trans (hfetch rest)⟩
  · exact ⟨s.host, (step_neverReturns (by simp [hp]) hh).trans (hfetch s.host)⟩

/-- A step faults by the block's turn only: a move of the environment goes on (R118, R137). -/
theorem step_fault {s : State} {f : Fault} (h : step s = .fault f) : s.phase = .exec ∧ BlocksTurn s := by
  have hexec : ∀ rest, step s = blockTurn { passTime s with host := rest } → s.phase = .exec :=
    fun rest hturn => phase_of_blockTurn_fault (s := { passTime s with host := rest }) (hturn.symm.trans h)
  match hh : s.host with
  | [] => exact ⟨hexec s.host (step_alone hh), .inl hh⟩
  | .run :: rest => exact ⟨hexec rest (step_run hh), .inr (.inl ⟨rest, hh⟩)⟩
  | .neverReturns :: rest =>
    by_cases hp : s.phase = .delay
    · cases (step_hung hp hh).symm.trans h
    · exact ⟨hexec s.host (step_neverReturns hp hh), .inr (.inr ⟨rest, hh⟩)⟩
  | .elapse :: rest => cases (step_elapse hh).symm.trans h
  | .submit w :: rest => cases (step_submit hh).symm.trans h
  | .readStat :: rest => cases (step_readStat hh).symm.trans h
  | .reset a :: rest => cases (step_reset hh).symm.trans h

/-- A step raises the fault exactly when it fetches a word that is not well formed for the block (R118). -/
theorem step_microcodeFault_iff {s : State} :
    step s = .fault .microcodeFault ↔
      s.phase = .exec ∧ BlocksTurn s ∧ ∃ u, fetch s = some u ∧ uopWellFormed s.cfg u = false := by
  constructor
  · intro h
    obtain ⟨hp, hturn⟩ := step_fault h
    obtain ⟨rest, hstep⟩ := step_fetches hp hturn
    rw [hstep, fetchTurn_microcodeFault_iff] at h
    exact ⟨hp, hturn, h⟩
  · rintro ⟨hp, hturn, hbad⟩
    obtain ⟨rest, hstep⟩ := step_fetches hp hturn
    rw [hstep, fetchTurn_microcodeFault_iff]
    exact hbad

/-- A run stops at a fault. -/
theorem run_fault {s : State} {f : Fault} (h : step s = .fault f) (k : Nat) : run (k + 1) s = .fault f := by
  simp only [run, h]

theorem uopWellFormed_of_mem {c : Cfg} {prog : List UopWord} (h : microProgramWellFormed c prog = true) :
    ∀ u ∈ prog, uopWellFormed c u = true := by
  simp only [microProgramWellFormed, Bool.and_eq_true, List.all_eq_true] at h
  obtain ⟨⟨⟨-, hall⟩, -⟩, -⟩ := h
  exact hall

/-- Settles O29: the fault is the fetch of a word that is not well formed, and every word of an expansion is. -/
theorem microcodeFaultExactly : Obligations.MicrocodeFaultExactly := by
  refine ⟨fun v s hc => drivePin_fault v s hc, fun s => ?_, fun s k h => run_fault h k, fun op cls b c => ?_⟩
  · simp only [← uopWellFormed_eq_false_iff]
    exact step_microcodeFault_iff
  · exact uopWellFormed_of_mem (expansionsAreWellFormed op cls b c)

/-! ## Blocks beside one another -/

/-- Settles O60: a step by no construction keeps the block's handles, and so leaves the pins apart as they were. -/
theorem blocksShareNothing : Obligations.BlocksShareNothing := by
  refine ⟨fun bs k s t hapart hs hst hno => ?_, fun bs bs' k h => ?_⟩
  · obtain ⟨-, -, hhandles⟩ := configurationImmutable s t hst hno
    exact stepAt_next hs hst ((allApart_set hs hhandles).trans hapart)
  · obtain ⟨s, t, hs, hst, hapart, rfl⟩ := stepAt_cases h
    obtain ⟨hk, -⟩ := List.getElem?_eq_some_iff.mp hs
    exact ⟨hapart, List.length_set, fun j hj => List.getElem?_set_ne hj.symm, s, t, hs, List.getElem?_set_self hk, hst⟩

end Sys2Proof.Machine
end

section
/-!
PROOFS. The family 70_reset_and_hazards.md: the minimum duration of a request, the first pin event of a block, and
construction as the block's only reset.
-/

namespace Sys2Proof.Machine

/-! ## The minimum duration of a request (R155) -/

/-- A timed list lasts at least the sum of its delays, from its first event to its last (R55). -/
theorem Timed.sum_delays_le {x y : Stamped} {l : List Stamped} (h : Timed (x :: (l ++ [y]))) :
    x.time + (((x :: l).map (·.event)).map eventDelay).sum ≤ y.time := by
  induction l generalizing x with
  | nil => exact h.due_le (i := 0) (j := 1) rfl rfl (by decide)
  | cons z l ih =>
    have hxz : x.time + eventDelay x.event ≤ z.time := h.due_le (i := 0) (j := 1) rfl rfl (by decide)
    have hzy := ih (List.Pairwise.of_cons h)
    simp only [List.map_cons, List.sum_cons] at hzy ⊢
    omega

/-- The WAITs of a micro-program add up to its request's line of R155's table. -/
theorem progDelay_expand (t : Timing) (op : ReqOp) (cls : DelayClass) (b : Byte) (c : Cfg) :
    progDelay t (expand op cls b c) = minDuration t op cls := by
  have hend : progDelay t [endWord] = 0 := rfl
  cases op with
  | cmd =>
    rw [expand, expandCmd_eq, progDelay_append, progDelay_transferBody, hend]
    cases cls <;> rfl
  | data =>
    rw [expand, expandData_eq, progDelay_append, progDelay_transferBody, hend]
    rfl
  | init =>
    have hclrrdy : progDelay t [clrrdyWord] = 0 := rfl
    have hsetrdy : progDelay t [setrdyWord, endWord] = 0 := rfl
    rw [expand, expandInit_eq, ← List.singleton_append, progDelay_append, progDelay_append, hclrrdy, hsetrdy,
      progDelay_initBody, Nat.zero_add]
    rfl

/-- Settles O39: the events before `Done` are the `Accept` and those of the micro-program, whose WAITs all lie
between. -/
theorem requestMinimumDuration : Obligations.RequestMinimumDuration := by
  intro c t op cls b start finish mid hes h
  obtain ⟨body, hbody, -⟩ := expand_eq_body_end op cls b c
  have hbefore : (start :: mid).map (·.event) = .accept (reqWord (reqOpCode op) cls.bit b) :: progEvents t body := by
    rw [← List.cons_append, List.map_append, endedEvents, hbody, progEvents_append, ← List.cons_append] at hes
    exact (List.append_inj' hes rfl).1
  have hsum : progDelay t body = minDuration t op cls := by
    rw [← progDelay_expand t op cls b c, hbody, progDelay_append]
    rfl
  have hlasts := h.sum_delays_le
  rw [hbefore, List.map_cons, List.sum_cons] at hlasts
  rw [← hsum]
  exact (Nat.add_le_add_left (Nat.le_add_left _ _) _).trans hlasts

/-! ## The first pin event of a block (R141) -/

theorem firstSet_append (es fs : List Event) : firstSet (es ++ fs) = (firstSet es).or (firstSet fs) :=
  List.findSome?_append

theorem firstSet_record (e : Event) (s : State) :
    firstSet (events (record e s)) = (firstSet (events s)).or (firstSet [e]) := by
  rw [← firstSet_append]
  simp [events]

/-- The block has driven no pin: it is not Ready, and if it is busy it runs INIT up to its first pin event (R141). -/
def Undriven (s : State) : Prop :=
  firstSet (events s) = none ∧ s.pins = Pins.undriven ∧ s.ready = false ∧
    (s.phase ≠ .idle → s.reqOp = .init ∧ s.upc.toNat ≤ 1)

theorem firstDrive_iff {s : State} : FirstDrive s ↔ firstSet (events s) = some (.e, false) ∨ Undriven s := Iff.rfl

/-- The second micro-op of INIT is its first pin event (R109). -/
theorem expandInit_second (c : Cfg) : (expandInit c)[1]? = some (setpinWord .e false) := by
  rw [expandInit_eq_lines]
  rfl

/-- A busy block that has driven no pin is at INIT's CLRRDY or at its `Set(E, 0)` (R109). -/
theorem Undriven.word {s : State} {u : UopWord} (h : Undriven s) (hi : Inv s) (hp : s.phase ≠ .idle)
    (hu : fetch s = some u) : u = clrrdyWord ∨ u = setpinWord .e false := by
  obtain ⟨-, -, -, hbusy⟩ := h
  obtain ⟨ho, hk⟩ := hbusy hp
  rw [fetch, hi.program hp, ho, expand] at hu
  obtain hk | hk : s.upc.toNat = 0 ∨ s.upc.toNat = 1 := by omega
  · rw [hk, expandInit_first, Option.some.injEq] at hu
    exact .inl hu.symm
  · rw [hk, expandInit_second, Option.some.injEq] at hu
    exact .inr hu.symm

theorem Undriven.fetch_ne {s : State} {u : UopWord} (h : Undriven s) (hi : Inv s) (hp : s.phase ≠ .idle)
    (hclrrdy : u ≠ clrrdyWord) (hset : u ≠ setpinWord .e false) : fetch s ≠ some u :=
  fun hu => (h.word hi hp hu).elim hclrrdy hset

theorem Undriven.fetch_ne_wait {s : State} (h : Undriven s) (hi : Inv s) (hp : s.phase ≠ .idle) (n : TimeName) :
    fetch s ≠ some (waitWord n) :=
  h.fetch_ne hi hp (waitWord_ne_clrrdy n) (setpinWord_ne_wait .e false n).symm

/-- A block that has driven no pin has still driven none after an event that is no pin event, if its pins and `READY`
stay and, when busy, it is in INIT's first two micro-ops. -/
theorem Undriven.of_record {s t : State} {e : Event} (h : Undriven s) (he : firstSet [e] = none)
    (ht : events t = events (record e s)) (hpins : t.pins = s.pins) (hready : t.ready = s.ready)
    (hbusy : t.phase ≠ .idle → t.reqOp = .init ∧ t.upc.toNat ≤ 1) : Undriven t := by
  obtain ⟨hnone, hundriven, hnotReady, -⟩ := h
  refine ⟨?_, hpins.trans hundriven, hready.trans hnotReady, hbusy⟩
  rw [ht, firstSet_record, hnone, he]
  rfl

/-- A turn of a block that has driven no pin drives none, or is INIT's `Set(E, 0)`: CMD and DATA are not accepted before
(R120), and INIT's only micro-op before it is CLRRDY. -/
theorem Undriven.moves {s t : State} (h : Undriven s) (hi : Inv s) (hm : Moves s t) : FirstDrive t := by
  have ⟨hnone, hundriven, hnotReady, _⟩ := h
  cases hm with
  | idles => exact .inr h
  | illegal _ _ _ hp | notReady _ _ _ _ hp => exact .inr (h.of_record rfl rfl rfl rfl fun hb => absurd hp hb)
  | accepts op cls b rest hp _ _ hr =>
    have ho : op = .init := by
      by_contra hne
      simp [hr hne] at hnotReady
    exact .inr (h.of_record rfl rfl rfl rfl fun _ => ⟨ho, Nat.zero_le 1⟩)
  | drives p v hp hu =>
    rcases h.word hi (by simp [hp]) hu with hw | hw
    · exact absurd hw (setpinWord_ne_clrrdy p v)
    · obtain ⟨rfl, rfl⟩ := setpinWord_inj hw
      refine .inl ((firstSet_record (.set .e false) s).trans ?_)
      rw [hnone]
      rfl
  | waits n hp hu => exact absurd hu (h.fetch_ne_wait hi (by simp [hp]) n)
  | ends hp hu | setsReady hp hu => exact absurd hu (h.fetch_ne hi (by simp [hp]) (by decide) (by decide))
  | clearsReady hp hu =>
    have hb : s.phase ≠ .idle := by simp [hp]
    obtain ⟨ho, hk⟩ := hi.clrrdy_place hb hu
    have hup := hi.upc_next hb hu (by decide)
    exact .inr ⟨hnone, hundriven, rfl, fun _ => ⟨ho, (hup.trans (by rw [hk])).le⟩⟩
  | returns hp =>
    obtain ⟨n, hu, -⟩ := hi.waiting hp
    exact absurd hu (h.fetch_ne_wait hi (by simp [hp]) n)

/-- A turn of the block adds to the trace at its end (R135). -/
theorem moves_events {s t : State} (h : Moves s t) : ∃ es, events t = events s ++ es := by
  rcases moves_trace h with ⟨ht, -⟩ | ⟨e, ht, -⟩
  · exact ⟨[], by rw [events, ht, List.append_nil]; rfl⟩
  · exact ⟨[e], by rw [events, ht, List.map_append]; rfl⟩

theorem firstDrive_moves {s t : State} (hi : Inv s) (h : FirstDrive s) (hm : Moves s t) : FirstDrive t := by
  rcases firstDrive_iff.mp h with hset | hundriven
  · obtain ⟨es, hes⟩ := moves_events hm
    exact .inl (by rw [hes, firstSet_append, hset]; rfl)
  · exact hundriven.moves hi hm

/-- Settles O47: the first pin event stays the first, a turn before it can only be one of INIT's first two micro-ops,
and a new block has driven no pin. -/
theorem stepKeepsFirstPinEvent : Obligations.StepKeepsFirstPinEvent := by
  intro s t hi h hst
  rcases step_block_cases hst with ⟨rest, hm⟩ | hsame | ⟨a, rest, -, ha, rfl⟩
  · exact firstDrive_moves (inv_passTime hi rest) h hm
  · rw [← hsame] at h
    exact h
  · rw [resetBlock_legal ha]
    exact .inr ⟨rfl, rfl, rfl, fun hb => absurd rfl hb⟩

/-! ## Construction (R139, R142) -/

theorem construct_eq_none_iff {a : ConstructArgs} : construct a = none ↔ a.legal = false := by
  simp [construct]

theorem cfg_legal_eq_false_iff {c : Cfg} : c.legal = false ↔ c.f = true ∧ c.n = true := by
  simp [Cfg.legal]

theorem timing_legal_eq_false_iff {t : Timing} : t.legal = false ↔ t.tLong < t.tShort := by
  simp [Timing.legal]

/-- Settles O7: the check of the arguments fails in one of its three parts. -/
theorem constructionRefusedExactly : Obligations.ConstructionRefusedExactly := by
  intro a
  rw [construct_eq_none_iff, ConstructArgs.legal, Bool.and_eq_false_iff, Bool.and_eq_false_iff, cfg_legal_eq_false_iff,
    timing_legal_eq_false_iff, or_assoc, beq_eq_false_iff_ne]

/-- An idle block that is not Ready rejects every transfer and drives no pin for it (R120, R128). -/
theorem transfers_notInitialized {t : State} (hp : t.phase = .idle) (hr : t.ready = false) :
    (∀ c b, ∃ u, exec (.cmd c b) t = .next u ∧ u.last = .notInitialized ∧ u.pins = t.pins) ∧
    (∀ b, ∃ u, exec (.data b) t = .next u ∧ u.last = .notInitialized ∧ u.pins = t.pins) := by
  obtain ⟨hcmd, hdata⟩ := transferRejectedWhenNotReady t hp hr
  exact ⟨fun c b => ⟨_, hcmd c b, rfl, rfl⟩, fun b => ⟨_, hdata b, rfl, rfl⟩⟩

/-- Settles O53: the new block is that of R37, which is idle and not Ready, so it rejects every transfer. -/
theorem resetAbandonsTheRequest : Obligations.ResetAbandonsTheRequest := by
  intro s a rest hh ha
  refine ⟨_, step_reset hh, ?_⟩
  rw [resetBlock_legal ha]
  exact ⟨rfl, rfl, rfl, rfl, rfl, rfl, rfl, latch_undriven, rfl, rfl, rfl, Nat.le_add_right _ _,
    transfers_notInitialized rfl rfl⟩

end Sys2Proof.Machine
end
